-- ==== Sys2Proof/Word.lean ====
section
/-! DEFINITION. The word types of the Huffman codec core (spec/00_scope.md, R2, R5, R6). -/

namespace Sys2Proof

/-- A symbol, and one byte of a buffer or of a container: 8 bits (R2, R5). -/
abbrev Byte := BitVec 8

/-- A register, a command word, a slave-port address: 32 bits (R5). -/
abbrev Word := BitVec 32

/-- A bit-string: a finite sequence of bits, the first bit at the head (R6).  `false` is the bit 0
(left), `true` the bit 1 (right). -/
abbrev Bits := List Bool

end Sys2Proof
end

