-- ==== Sys2Proof/Syntax.lean ====
section
/-! DEFINITION. The commands of HCC-CMD version 1 and the fields of the one command format CMD32
(spec/30_encoding.md, R41, R42, R46). -/

namespace Sys2Proof

/-- The two commands of the opcode table (R42).  A command has no register operand and no immediate
field: its operands are IN, IN_LEN and the capacities, all implicit (R46). -/
inductive Instr where
  /-- COMPRESS (R78). -/
  | compress
  /-- DECOMPRESS (R79). -/
  | decompress
  deriving DecidableEq, Repr

/-- The two fields of a command word in the format CMD32 (R41): OPC, bits 7:0, and RSV, bits 31:8. -/
structure CommandFields where
  /-- OPC, the opcode. -/
  opc : BitVec 8
  /-- RSV, which must be zero. -/
  rsv : BitVec 24
  deriving DecidableEq, Repr

end Sys2Proof
end

