-- ==== Sys2Proof/WellFormed.lean ====
section
/-! DEFINITION. Which command words' fields are well-formed (spec/30_encoding.md, R41 to R45), and which
commands are. -/

namespace Sys2Proof

/-- RSV "must be zero" (R41). -/
def CommandFields.rsvZero (f : CommandFields) : Bool := f.rsv == 0#24

/-- OPC is one of the two opcodes of version 1; 0x00 and 0x03 to 0xFF are not (R41, R45). -/
def CommandFields.opcLegal (f : CommandFields) : Bool := f.opc == 0x01#8 || f.opc == 0x02#8

/-- The fields of a legal command word (R41, R44). -/
def CommandFields.wellFormed (f : CommandFields) : Bool := f.rsvZero && f.opcLegal

/-- A command carries no operand (R46), so there is no operand that could be out of its range: both
commands are well-formed as syntax. -/
def Instr.wellFormed : Instr → Bool
  | .compress => true
  | .decompress => true

end Sys2Proof
end

