-- ==== Sys2Proof/Decode.lean ====
section
/-! DEFINITION. The command decoder and the encoder (spec/30_encoding.md, R41 to R45).  The decoder is
total on command words and rejects by name; the encoder is written from the same table. -/

namespace Sys2Proof

/-- Why a command word is no command.  Either reason is an illegal command, which starts and completes
with ILLEGAL_COMMAND (R44). -/
inductive DecodeError where
  /-- RSV is not zero (R41, R44). -/
  | reservedNotZero (w : Word)
  /-- RSV is zero and OPC is neither 0x01 nor 0x02 (R44, R45). -/
  | opcodeNotAssigned (w : Word)
  deriving DecidableEq, Repr

/-- The fields of a command word: OPC = w[7:0], RSV = w[31:8] (R41). -/
def commandFields (w : Word) : CommandFields :=
  { opc := w.extractLsb' 0 8, rsv := w.extractLsb' 8 24 }

/-- The command word that has these fields. -/
def wordOfFields (f : CommandFields) : Word := (f.rsv ++ f.opc : BitVec 32)

/-- The opcode of a command (R41). -/
def opcodeOf : Instr → BitVec 8
  | .compress => 0x01#8
  | .decompress => 0x02#8

/-- The command an opcode stands for (R41, R42). -/
def commandOfOpcode (opc : BitVec 8) : Option Instr :=
  if opc = 0x01#8 then some .compress
  else if opc = 0x02#8 then some .decompress
  else none

/-- The decoder (R43): defined for every 32-bit word. -/
def decode (w : Word) : Except DecodeError Instr :=
  let f := commandFields w
  if f.rsvZero then
    match commandOfOpcode f.opc with
    | some i => .ok i
    | none => .error (.opcodeNotAssigned w)
  else .error (.reservedNotZero w)

/-- The fields of a command's word: its opcode, RSV zero (R41). -/
def fieldsOf (i : Instr) : CommandFields := { opc := opcodeOf i, rsv := 0#24 }

/-- The encoder: the one word of a command (R42). -/
def encode (i : Instr) : Word := wordOfFields (fieldsOf i)

/-- What the decoder reads from the low `nbits` bits of `w`, every other bit of the one 32-bit command
word being 0. -/
def decodeTableWord (nbits w : Nat) : Option Instr :=
  match decode (BitVec.ofNat 32 (w % 2 ^ nbits)) with
  | .ok i => some i
  | .error _ => none

end Sys2Proof
end

