-- ==== Sys2Proof/Machine/Bytes.lean ====
section
/-! DEFINITION. Byte order and bit order: le32, u32le (spec/00_scope.md, R8) and the most significant bit
first order of a serialised bit-string (R7). -/

namespace Sys2Proof.Machine

open Sys2Proof (Byte Word Bits)

/-- The little-endian reading of four bytes, as a natural (R8). -/
def le32 (b0 b1 b2 b3 : Byte) : Nat :=
  b0.toNat + 256 * b1.toNat + 65536 * b2.toNat + 16777216 * b3.toNat

/-- The four bytes v[7:0], v[15:8], v[23:16], v[31:24] of a value that fits 32 bits (R8). -/
def u32le (v : Nat) : List Byte :=
  [BitVec.ofNat 8 v, BitVec.ofNat 8 (v / 256), BitVec.ofNat 8 (v / 65536),
    BitVec.ofNat 8 (v / 16777216)]

/-- The bits of a byte, the most significant first (R7). -/
def bitsOfByte (b : Byte) : Bits :=
  [b.getLsbD 7, b.getLsbD 6, b.getLsbD 5, b.getLsbD 4, b.getLsbD 3, b.getLsbD 2, b.getLsbD 1,
    b.getLsbD 0]

/-- The number a bit-string writes, its first bit the most significant (R7). -/
def natOfBits (s : Bits) : Nat := s.foldl (fun n b => 2 * n + b.toNat) 0

/-- The byte of eight bits, the first bit its bit 7 (R7). -/
def byteOfBits (s : Bits) : Byte := BitVec.ofNat 8 (natOfBits s)

/-- Byte `i` of a byte sequence.  Every use stands behind a check that `i` is inside (R74), so the 0
outside is never read (log entry 15). -/
def byteAt (c : List Byte) (i : Nat) : Byte := c.getD i 0#8

/-- The four bytes from `i` on, read little-endian (R8, R71). -/
def le32At (c : List Byte) (i : Nat) : Nat :=
  le32 (byteAt c i) (byteAt c (i + 1)) (byteAt c (i + 2)) (byteAt c (i + 3))

end Sys2Proof.Machine
end

