-- ==== Sys2Proof/Machine/Errors.lean ====
section
/-! DEFINITION. The errors a command can raise and their codes in STATUS.ERR (spec/60_exceptions.md, R83). -/

namespace Sys2Proof.Machine

/-- The error kinds of R83. -/
inductive CmdError where
  /-- COMPRESS of an input of length 0 (R51). -/
  | emptyInput
  /-- A tree of an empty table; no command reaches it (R61). -/
  | impossibleTree
  /-- A container whose header, pairs or payload do not fit (R74, R75). -/
  | malformedContainer
  /-- A padding count above 7, or above the payload's bits (R69). -/
  | invalidPadding
  /-- A command word that is neither COMPRESS nor DECOMPRESS (R44). -/
  | illegalCommand
  /-- IN_LEN above IN_CAP (R78, R79). -/
  | badLength
  /-- A result longer than OUT_CAP (R78, R79). -/
  | outputOverflow
  deriving DecidableEq, Repr

/-- The code of an error in STATUS.ERR (R83). -/
def CmdError.code : CmdError → BitVec 4
  | .emptyInput => 1#4
  | .impossibleTree => 2#4
  | .malformedContainer => 3#4
  | .invalidPadding => 4#4
  | .illegalCommand => 5#4
  | .badLength => 6#4
  | .outputOverflow => 7#4

end Sys2Proof.Machine
end

