-- ==== Sys2Proof/Machine/BitPacker.lean ====
section
/-! DEFINITION. The Bit Packer and the Bit Unpacker (spec/44_bit_packer.md, R67, R69). -/

namespace Sys2Proof.Machine

open Sys2Proof (Byte Bits)

/-- The padding count of a bit-string of length `t`: (8 - t mod 8) mod 8 (R67). -/
def padCount (t : Nat) : Nat := (8 - t % 8) % 8

/-- `n` bytes of a bit-string, eight bits each, in order (R67). -/
def packBytes : Nat → Bits → List Byte
  | 0, _ => []
  | n + 1, s => byteOfBits (s.take 8) :: packBytes n (s.drop 8)

/-- Pack: the bit-string, padded with 0 bits at its end to whole bytes, and the padding count (R67). -/
def pack (s : Bits) : List Byte × Nat :=
  let pad := padCount s.length
  (packBytes ((s.length + pad) / 8) (s ++ List.replicate pad false), pad)

/-- Unpack: the payload's bits without the last `p`; INVALID_PADDING when p > 7 and when p > 8B.  The
dropped bits are not checked (R69). -/
def unpack (payload : List Byte) (p : Nat) : Except CmdError Bits :=
  if 7 < p then .error .invalidPadding
  else if 8 * payload.length < p then .error .invalidPadding
  else .ok ((payload.flatMap bitsOfByte).take (8 * payload.length - p))

end Sys2Proof.Machine
end

