-- ==== Sys2Proof/Machine/FrequencyAnalyzer.lean ====
section
/-! DEFINITION. The Frequency Analyzer (spec/41_frequency_analyzer.md, R49 to R51).  Counts are naturals;
they never reach 2^32 (R52, log entry 14). -/

namespace Sys2Proof.Machine

open Sys2Proof (Byte)

/-- One (symbol, frequency) pair of the frequency table. -/
structure Entry where
  sym : Byte
  freq : Nat
  deriving DecidableEq, Repr

/-- FreqCount: how often the symbol occurs in the input (R49). -/
def freqCount (d : List Byte) (s : Byte) : Nat := d.count s

/-- The 256 symbols in ascending order (R50). -/
def allSymbols : List Byte := (List.range 256).map (BitVec.ofNat 8)

/-- The entry of a symbol that occurs; a symbol with count 0 gets none (R50). -/
def entryOf (d : List Byte) (s : Byte) : Option Entry :=
  if 1 ≤ freqCount d s then some { sym := s, freq := freqCount d s } else none

/-- FreqTable: the entries in ascending symbol order; an empty input raises EMPTY_INPUT before any
counting (R50, R51). -/
def freqTable (d : List Byte) : Except CmdError (List Entry) :=
  if d.length = 0 then .error .emptyInput else .ok (allSymbols.filterMap (entryOf d))

end Sys2Proof.Machine
end

