-- ==== Sys2Proof/Machine/TreeBuilder.lean ====
section
/-! DEFINITION. The Tree Builder (spec/42_tree_builder.md, R53 to R61).  A node of the arena is a term that
carries its arena index and holds its children as subterms; `Tree.arena` gives the arena back (log entry 8). -/

namespace Sys2Proof.Machine

open Sys2Proof (Byte)

/-- A node with the subtree under it (R53): a leaf holds a symbol and its weight, an internal node its left
and right child and the sum of their weights.  `index` is the node's arena index, which is its insertion
sequence number (R54). -/
inductive Tree where
  | leaf (index : Nat) (sym : Byte) (weight : Nat)
  | node (index : Nat) (left right : Tree) (weight : Nat)
  deriving DecidableEq, Repr

/-- The arena index of a node (R54). -/
def Tree.index : Tree → Nat
  | .leaf i _ _ => i
  | .node i _ _ _ => i

/-- The weight of a node (R53). -/
def Tree.weight : Tree → Nat
  | .leaf _ _ w => w
  | .node _ _ _ w => w

/-- One entry of the arena: `Leaf(sym, w)` or `Internal(left, right, w)` with child indices (R53). -/
inductive ArenaNode where
  | leaf (sym : Byte) (weight : Nat)
  | internal (left right : Nat) (weight : Nat)
  deriving DecidableEq, Repr

/-- The weight of an arena node (R53). -/
def ArenaNode.weight : ArenaNode → Nat
  | .leaf _ w => w
  | .internal _ _ w => w

/-- The arena of a tree: each node under its index (R53). -/
def Tree.arena : Tree → List (Nat × ArenaNode)
  | .leaf i s w => [(i, .leaf s w)]
  | .node i l r w => (i, .internal l.index r.index w) :: (l.arena ++ r.arena)

/-- key(a) < key(b): the smaller weight first, among equal weights the smaller index (R55). -/
def Tree.keyLt (a b : Tree) : Bool :=
  decide (a.weight < b.weight ∨ (a.weight = b.weight ∧ a.index < b.index))

/-- The leaves of an entry list, leaf k with the index k (R54); `k` is the index of the first. -/
def leavesFrom (k : Nat) : List Entry → List Tree
  | [] => []
  | e :: es => .leaf k e.sym e.freq :: leavesFrom (k + 1) es

/-- The node of Q with the smallest key, and Q without it (R55, R56). -/
def extractMin : List Tree → Option (Tree × List Tree)
  | [] => none
  | t :: ts =>
    match extractMin ts with
    | none => some (t, [])
    | some (m, rest) => if t.keyLt m then some (t, ts) else some (m, t :: rest)

/-- The internal node of a merge: the first-removed node is the left child, the second the right, and the
weight is the exact sum (R56, R57, R58). -/
def mergeNode (next : Nat) (a b : Tree) : Tree := .node next a b (a.weight + b.weight)

/-- One iteration of the merge loop (R56): remove the two smallest, insert their internal node under the
index `next`.  With fewer than two nodes in Q the loop has ended and nothing changes. -/
def mergeStep (next : Nat) (q : List Tree) : List Tree :=
  match extractMin q with
  | none => q
  | some (a, q1) =>
    match extractMin q1 with
    | none => q
    | some (b, q2) => mergeNode next a b :: q2

/-- `k` iterations of the merge loop, the next internal node getting the index `next` (R54, R56). -/
def mergeLoop : Nat → Nat → List Tree → List Tree
  | 0, _, q => q
  | k + 1, next, q => mergeLoop k (next + 1) (mergeStep next q)

/-- TreeBuild (R56): the root of the tree of an entry list.  N leaves take N - 1 merges (R60).  An empty
list raises IMPOSSIBLE_TREE (R61). -/
def treeBuild (es : List Entry) : Except CmdError Tree :=
  match mergeLoop (es.length - 1) es.length (leavesFrom 0 es) with
  | [] => .error .impossibleTree
  | root :: _ => .ok root

end Sys2Proof.Machine
end

