-- ==== Sys2Proof/Machine/CodeTable.lean ====
section
/-! DEFINITION. The Code Table Generator (spec/43_code_table.md, R63, R64, R66). -/

namespace Sys2Proof.Machine

open Sys2Proof (Byte Bits)

/-- The code table: each symbol of the tree with its code. -/
abbrev CodeTable := List (Byte × Bits)

/-- Walk: the path from the root to each leaf, 0 to the left and 1 to the right (R63). -/
def walk : Tree → Bits → CodeTable
  | .leaf _ s _, path => [(s, path)]
  | .node _ l r _, path => walk l (path ++ [false]) ++ walk r (path ++ [true])

/-- CodeGen (R63): a leaf root gets the one-bit code 0, never the empty path (R64). -/
def codeGen : Tree → CodeTable
  | .leaf _ s _ => [(s, [false])]
  | .node i l r w => walk (.node i l r w) []

/-- CODE[s] (R63).  A symbol outside the table has no code, and COMPRESS never asks for one, since every
input byte has an entry (R63); the empty bit-string there is never used (log entry 15). -/
def codeOf (c : CodeTable) (s : Byte) : Bits := (c.lookup s).getD []

/-- EncodeBits: the codes of the input bytes, concatenated in input order (R66). -/
def encodeBits (c : CodeTable) (d : List Byte) : Bits := d.flatMap (codeOf c)

end Sys2Proof.Machine
end

