-- ==== Sys2Proof/Machine/ContainerCodec.lean ====
section
/-! DEFINITION. The Container Codec (spec/45_container_codec.md, R71 to R75): the container, its parser,
and the tree-walk decoder. -/

namespace Sys2Proof.Machine

open Sys2Proof (Byte Bits)

/-! ### Framing -/

/-- A pair of the container: the symbol, then the frequency, little-endian (R71). -/
def pairBytes (e : Entry) : List Byte := e.sym :: u32le e.freq

/-- Frame: the container of an original length, an entry list, a payload and a padding count (R71, R73).
NSYM holds N mod 256 (R72). -/
def frame (len : Nat) (es : List Entry) (payload : List Byte) (pad : Nat) : List Byte :=
  u32le len ++ [BitVec.ofNat 8 (es.length % 256)] ++ es.flatMap pairBytes ++ payload ++
    [BitVec.ofNat 8 pad]

/-! ### Parsing -/

/-- What Parse returns (R74): the original length, the entries in stored order, the payload and the
padding byte. -/
structure Parsed where
  len : Nat
  entries : List Entry
  payload : List Byte
  pad : Nat
  deriving DecidableEq, Repr

/-- The symbol count a stored NSYM byte means: 0 means 256 (R72). -/
def symbolCount (b : Byte) : Nat := if b.toNat = 0 then 256 else b.toNat

/-- Whether a symbol stands in an entry list already (R74). -/
def hasSymbol (es : List Entry) (s : Byte) : Bool := es.any (fun e => e.sym == s)

/-- `n` pairs from pair `k` on, appended in stored order to the entries `es` read so far; a frequency 0
and a symbol read before raise MALFORMED_CONTAINER (R74). -/
def parsePairs (c : List Byte) : Nat → Nat → List Entry → Except CmdError (List Entry)
  | 0, _, es => .ok es
  | n + 1, k, es =>
    let s := byteAt c (5 + 5 * k)
    let f := le32At c (6 + 5 * k)
    if f = 0 then .error .malformedContainer
    else if hasSymbol es s then .error .malformedContainer
    else parsePairs c n (k + 1) (es ++ [{ sym := s, freq := f }])

/-- The exact sum of the frequencies (R74). -/
def totalFreq (es : List Entry) : Nat := (es.map Entry.freq).sum

/-- Parse (R74). -/
def parse (c : List Byte) : Except CmdError Parsed :=
  if c.length < 5 then .error .malformedContainer
  else
    let n := symbolCount (byteAt c 4)
    if c.length < 6 + 5 * n then .error .malformedContainer
    else
      match parsePairs c n 0 [] with
      | .error e => .error e
      | .ok es =>
        if totalFreq es = le32At c 0 then
          .ok { len := le32At c 0, entries := es,
                payload := (c.drop (5 + 5 * n)).take (c.length - 6 - 5 * n),
                pad := (byteAt c (c.length - 1)).toNat }
        else .error .malformedContainer

/-! ### Decoding -/

/-- The walk from a node to a leaf, one bit per step, 0 to the left and 1 to the right: the leaf's symbol
and the bits left; MALFORMED_CONTAINER when the bits run out (R75). -/
def descend : Tree → Bits → Except CmdError (Byte × Bits)
  | .leaf _ s _, u => .ok (s, u)
  | .node _ _ _ _, [] => .error .malformedContainer
  | .node _ l r _, b :: u => if b then descend r u else descend l u

/-- One symbol (R75): under a leaf root it takes one bit, which must be 0; otherwise a walk from the root. -/
def decodeSymbol : Tree → Bits → Except CmdError (Byte × Bits)
  | .leaf _ _ _, [] => .error .malformedContainer
  | .leaf _ s _, b :: u => if b then .error .malformedContainer else .ok (s, u)
  | .node i l r w, u => descend (.node i l r w) u

/-- Decode: `n` symbols; bits left over after the last are ignored (R75). -/
def decodeBits (root : Tree) : Nat → Bits → Except CmdError (List Byte)
  | 0, _ => .ok []
  | n + 1, u =>
    match decodeSymbol root u with
    | .error e => .error e
    | .ok (s, rest) =>
      match decodeBits root n rest with
      | .error e => .error e
      | .ok d => .ok (s :: d)

end Sys2Proof.Machine
end

