-- ==== Sys2Proof/Config.lean ====
section
/-! DEFINITION. What an implementation fixes, and the values the spec leaves free.  None of the constants
has a body, so no proof can see a value of it, and what is proved holds whatever it is. -/

namespace Sys2Proof

/-- The parameter IN_CAP, less one (R3): any of 0 to 2^30 - 1. -/
opaque Config.inCapIndex : Fin 1073741824

/-- The parameter OUT_CAP, less one (R3): any of 0 to 2^30 - 1. -/
opaque Config.outCapIndex : Fin 1073741824

/-- The parameter IN_CAP: the size of the input buffer in bytes, 1 to 2^30 (R3). -/
def Config.inCap : Word := BitVec.ofNat 32 (Config.inCapIndex.val + 1)

/-- The parameter OUT_CAP: the size of the output buffer in bytes, 1 to 2^30 (R3). -/
def Config.outCap : Word := BitVec.ofNat 32 (Config.outCapIndex.val + 1)

/-- FREE VALUE.  "Any value", drawn for byte `i` at draw number `draw` (R35, R77, R92). -/
opaque Config.freeByte (draw i : Nat) : Byte

/-- FREE VALUE.  The parameter LATENCY (R4) as the model sees it: how many host turns pass between the
command start that draws it and the completion; finite and without a bound. -/
opaque Config.latency (draw : Nat) : Nat

end Sys2Proof
end

