-- ==== Sys2Proof/Machine/Bus.lean ====
section
/-! DEFINITION. What passes over the slave port: access sizes, data, transactions and answers
(spec/20_memory.md, R27, R31), and what a host can do next (R36, R48, R92). -/

namespace Sys2Proof.Machine

open Sys2Proof (Byte Word)

/-- The size of an access: 1, 2 or 4 bytes (R27). -/
inductive Size where
  | byte
  | half
  | word
  deriving DecidableEq, Repr

/-- The number of bytes of an access (R27). -/
def sizeBytes : Size → Nat
  | .byte => 1
  | .half => 2
  | .word => 4

/-- The data of an access, exactly 8 * size bits (R27). -/
inductive Datum where
  | byte (v : BitVec 8)
  | half (v : BitVec 16)
  | word (v : BitVec 32)
  deriving DecidableEq, Repr

/-- The size of the access a datum travels in (R27). -/
def datumSize : Datum → Size
  | .byte _ => .byte
  | .half _ => .half
  | .word _ => .word

/-- The bytes of a datum: byte k is data bits [8k+7:8k] (R31). -/
def datumBytes : Datum → List Byte
  | .byte v => [v]
  | .half v => [v.extractLsb' 0 8, v.extractLsb' 8 8]
  | .word v => [v.extractLsb' 0 8, v.extractLsb' 8 8, v.extractLsb' 16 8, v.extractLsb' 24 8]

/-- The datum of size `z` whose byte k is `f k`: data bits [8k+7:8k] (R31). -/
def datumOfBytes (z : Size) (f : Nat → Byte) : Datum :=
  match z with
  | .byte => .byte (f 0)
  | .half => .half (f 1 ++ f 0 : BitVec 16)
  | .word => .word (f 3 ++ f 2 ++ f 1 ++ f 0 : BitVec 32)

/-- The data 0 of size `z`, which a read that answers ERROR returns (R32). -/
def datumZero : Size → Datum
  | .byte => .byte 0#8
  | .half => .half 0#16
  | .word => .word 0#32

/-- The response of the port (R27). -/
inductive Resp where
  | okay
  | error
  deriving DecidableEq, Repr

/-- The two transactions of the slave port (R27). -/
inductive Transaction where
  /-- Read(addr, size). -/
  | read (addr : Word) (size : Size)
  /-- Write(addr, size, data); the datum has the size. -/
  | write (addr : Word) (data : Datum)
  deriving DecidableEq, Repr

/-- What the port answers: (data, resp) to a read, resp to a write (R27). -/
inductive Answer where
  | read (data : Datum) (resp : Resp)
  | write (resp : Resp)
  deriving DecidableEq, Repr

/-- The response in an answer. -/
def Answer.resp : Answer → Resp
  | .read _ r => r
  | .write r => r

/-- What the host's side does next: one transaction (R27); the read of a POLL, repeated until the masked
value matches (R48); the reset event (R92). -/
inductive HostAction where
  | access (t : Transaction)
  | poll (addr mask value : Word)
  | reset
  deriving DecidableEq, Repr

end Sys2Proof.Machine
end

