-- ==== Sys2Proof/Machine/State.lean ====
section
/-! DEFINITION. The state of the Huffman codec core (spec/10_state.md, R10 to R25) as plain data, its
value after reset (spec/70_reset_and_hazards.md, R92), and the reasons a step can stop. -/

namespace Sys2Proof.Machine

open Sys2Proof (Byte Word)

/-- The known bytes of a buffer: (index, byte) pairs, the indexes strictly rising.  A byte that is not
listed is "any value" (R92, R77): a free value that only the draw it belongs to fixes (log entry 2). -/
abbrev Memory := List Host.Cell

/-- The engine phase (R22): IDLE, or BUSY with the command word captured at the start. -/
inductive Phase where
  | idle
  | busy (w : Word)
  deriving DecidableEq, Repr

/-- The reasons a step could stop with a fault.  There is none: "No behaviour of the HCC is modelled as a
`fault` or `stuck` state" (spec/93_implementation_defined.md, end of part 1), so the type has no
constructor, and no step can answer a fault. -/
inductive Fault where
  deriving DecidableEq, Repr

/-- The reasons a step could be refused. -/
inductive Refusal where
  /-- Raised by an arm of exec for a command that has no meaning yet; safe, since the model stops where
  the hardware goes on.  No arm raises it: both commands have their meaning (log entry 16). -/
  | notModelled (mnemonic : String)
  deriving DecidableEq, Repr

/-- The state of one instance.  The last six fields are the model's own (INVENTORY.md, State): they stand
for the open delay, for the draws of "any value", and for the host. -/
structure State where
  /-- IN_CAP (R12): the parameter IN_CAP.  No step writes it. -/
  inCap : Word
  /-- OUT_CAP (R13): the parameter OUT_CAP.  No step writes it. -/
  outCap : Word
  /-- CTRL.IE (R14), the only storage of CTRL. -/
  ie : Bool
  /-- STATUS.DONE (R15). -/
  done : Bool
  /-- STATUS.ERR (R15). -/
  err : BitVec 4
  /-- IN_LEN (R17). -/
  inLen : Word
  /-- OUT_LEN (R18). -/
  outLen : Word
  /-- The engine phase (R22); STATUS.BUSY is 1 exactly when it is BUSY(w). -/
  phase : Phase
  /-- IN (R20): the bytes written since the last reset. -/
  inMem : Memory
  /-- OUT (R21): the bytes of the last command's result. -/
  outMem : Memory
  /-- The draw that IN's unwritten bytes hold (R92). -/
  inDraw : Nat
  /-- The draw that OUT's undefined bytes hold (R77, R92). -/
  outDraw : Nat
  /-- The number of the next draw of "any value". -/
  draws : Nat
  /-- In BUSY, how many host turns pass before the completion (LATENCY, R4, R77). -/
  wait : Nat
  /-- What the host has still to do, in issue order (R36). -/
  host : List HostAction
  /-- The answers the port has given, the most recent first (R27). -/
  answers : List Answer
  deriving DecidableEq, Repr

/-- The state after reset (R92), the host having nothing to do.  IN and OUT hold any value: nothing is
listed, and each has a draw of its own. -/
def State.reset : State where
  inCap := Config.inCap
  outCap := Config.outCap
  ie := false
  done := false
  err := 0#4
  inLen := 0#32
  outLen := 0#32
  phase := .idle
  inMem := []
  outMem := []
  inDraw := 0
  outDraw := 1
  draws := 2
  wait := 0
  host := []
  answers := []

end Sys2Proof.Machine
end

