-- ==== Sys2Proof/Machine/Ops.lean ====
section
/-! DEFINITION. The named operations over the buffers and over the state: reading and writing buffer
bytes, command start (spec/45_container_codec.md, R76), command completion (R77) with its error form
(spec/60_exceptions.md, R84), acknowledge (R87), and reset (spec/70_reset_and_hazards.md, R92). -/

namespace Sys2Proof.Machine

open Sys2Proof (Byte Word)

/-! ### Buffers -/

/-- The canonical form of a buffer's known bytes: the indexes strictly rise.  An unlisted byte is a free
value, so there is no byte an entry could be known to equal (log entry 2). -/
def Memory.wf : Memory → Bool
  | [] => true
  | [_] => true
  | (a, _) :: (b, y) :: m => decide (a < b) && Memory.wf ((b, y) :: m)

/-- The byte listed at `i`, if one is. -/
def Memory.lookup : Memory → Nat → Option Byte
  | [], _ => none
  | (a, x) :: m, i => if i = a then some x else Memory.lookup m i

/-- List `x` at `i`, in place of what was listed there. -/
def Memory.store : Memory → Nat → Byte → Memory
  | [], i, x => [(i, x)]
  | (a, y) :: m, i, x =>
    if i < a then (i, x) :: (a, y) :: m
    else if i = a then (i, x) :: m
    else (a, y) :: Memory.store m i x

/-- List the bytes from `i` on. -/
def Memory.storeBytes (m : Memory) (i : Nat) : List Byte → Memory
  | [] => m
  | x :: xs => Memory.storeBytes (Memory.store m i x) (i + 1) xs

/-- The memory that lists exactly these bytes, from `i` on. -/
def Memory.ofBytes (i : Nat) : List Byte → Memory
  | [] => []
  | x :: xs => (i, x) :: Memory.ofBytes (i + 1) xs

/-- The byte a buffer holds at `i`: the listed one, else the free value of its draw. -/
def Memory.byte (m : Memory) (draw i : Nat) : Byte :=
  match Memory.lookup m i with
  | some x => x
  | none => Config.freeByte draw i

/-- IN[i] (R20). -/
def State.inByte (s : State) (i : Nat) : Byte := Memory.byte s.inMem s.inDraw i

/-- OUT[i] (R21). -/
def State.outByte (s : State) (i : Nat) : Byte := Memory.byte s.outMem s.outDraw i

/-- The host's write of bytes to IN from `i` on (R30). -/
def State.storeIn (s : State) (i : Nat) (xs : List Byte) : State :=
  { s with inMem := Memory.storeBytes s.inMem i xs }

/-! ### Registers the host writes -/

/-- CTRL.IE takes a value (R14). -/
def State.setIE (s : State) (b : Bool) : State := { s with ie := b }

/-- IN_LEN takes a value (R17). -/
def State.setInLen (s : State) (v : Word) : State := { s with inLen := v }

/-- The host acknowledges a completion: DONE is cleared; ERR and OUT_LEN keep their values, and nothing
else is restored, because nothing was saved (R87). -/
def State.acknowledge (s : State) : State := { s with done := false }

/-! ### Command start and completion -/

/-- Command start (R76): the phase becomes BUSY(w), and DONE, ERR and OUT_LEN are cleared.  The open delay
LATENCY of this command is drawn (R4; log entry 5). -/
def State.start (s : State) (w : Word) : State :=
  { s with
    phase := .busy w, done := false, err := 0#4, outLen := 0#32
    wait := Config.latency s.draws, draws := s.draws + 1 }

/-- A successful completion with the result `r` (R77): OUT[0..|r|-1] is `r`, every other OUT byte is drawn
anew, OUT_LEN = |r|, ERR = 0, DONE = 1, and the phase is IDLE (so BUSY = 0). -/
def State.completeOk (s : State) (r : List Byte) : State :=
  { s with
    outMem := Memory.ofBytes 0 r, outDraw := s.draws, draws := s.draws + 1
    outLen := BitVec.ofNat 32 r.length, err := 0#4, done := true
    phase := .idle, wait := 0 }

/-- An error completion (R77, R84), this hardware's taking of an exception: ERR = the code, OUT_LEN = 0,
every OUT byte is drawn anew, DONE = 1, and the phase is IDLE. -/
def State.completeError (s : State) (e : CmdError) : State :=
  { s with
    outMem := [], outDraw := s.draws, draws := s.draws + 1
    outLen := 0#32, err := e.code, done := true
    phase := .idle, wait := 0 }

/-- Command completion (R77). -/
def State.complete (s : State) : Except CmdError (List Byte) → State
  | .ok r => s.completeOk r
  | .error e => s.completeError e

/-- The word of the running command, when its completion step is due: the phase is BUSY(w) and LATENCY has
passed (R77). -/
def State.dueCommand (s : State) : Option Word :=
  match s.phase with
  | .idle => none
  | .busy w => if s.wait = 0 then some w else none

/-- The completion of an illegal command word (R44): it reads nothing from IN and does not check IN_LEN. -/
def State.completeIllegal (s : State) : State := s.completeError .illegalCommand

/-! ### Reset and draws -/

/-- The reset event (R92, R93): every register and the phase take their reset values, a running command is
abandoned, and every byte of IN and of OUT is drawn anew.  The parameters stay, and so does what the host
has still to do and has been answered. -/
def State.resetEvent (s : State) : State :=
  { s with
    ie := false, done := false, err := 0#4, inLen := 0#32, outLen := 0#32
    phase := .idle, wait := 0
    inMem := [], inDraw := s.draws
    outMem := [], outDraw := s.draws + 1
    draws := s.draws + 2 }

/-- The next draw of "any value" is used up. -/
def State.afterDraw (s : State) : State := { s with draws := s.draws + 1 }

/-! ### The host's side -/

/-- The host has still `l` to do. -/
def State.setHost (s : State) (l : List HostAction) : State := { s with host := l }

/-- The port has given the answer `a`. -/
def State.answer (s : State) (a : Answer) : State := { s with answers := a :: s.answers }

/-- One host turn of the open delay passes. -/
def State.tick (s : State) : State := { s with wait := s.wait - 1 }

end Sys2Proof.Machine
end

