-- ==== Sys2Proof/Machine/Operands.lean ====
section
/-! DEFINITION. The implicit operands of a command (spec/30_encoding.md, R46): the input IN[0..IN_LEN-1],
its length, and the two capacities. -/

namespace Sys2Proof.Machine

open Sys2Proof (Byte Word)

/-- The input length IN_LEN as a natural (R17). -/
abbrev State.inputLength (s : State) : Nat := s.inLen.toNat

/-- The size of IN in bytes (R12). -/
abbrev State.inCapacity (s : State) : Nat := s.inCap.toNat

/-- The size of OUT in bytes (R13). -/
abbrev State.outCapacity (s : State) : Nat := s.outCap.toNat

/-- The input of a command, IN[0..IN_LEN-1] (R20, R46). -/
def State.input (s : State) : List Byte := (List.range s.inputLength).map s.inByte

/-- The result of the last command, OUT[0..OUT_LEN-1] (R18, R21). -/
def State.result (s : State) : List Byte := (List.range s.outLen.toNat).map s.outByte

end Sys2Proof.Machine
end

