-- ==== Sys2Proof/Machine/Commands.lean ====
section
/-! DEFINITION. The two commands (spec/45_container_codec.md, R78, R79) and their completion (R77). -/

namespace Sys2Proof.Machine

open Sys2Proof (Byte)

/-- The container of an input (R78, without its capacity checks): FreqTable, TreeBuild, CodeGen,
EncodeBits, Pack, Frame. -/
def containerOf (d : List Byte) : Except CmdError (List Byte) :=
  match freqTable d with
  | .error e => .error e
  | .ok es =>
    match treeBuild es with
    | .error e => .error e
    | .ok root =>
      let packed := pack (encodeBits (codeGen root) d)
      .ok (frame d.length es packed.1 packed.2)

/-- COMPRESS on an input that fits IN (R78): OUTPUT_OVERFLOW when the container is longer than OUT_CAP. -/
def compressBytes (outCap : Nat) (d : List Byte) : Except CmdError (List Byte) :=
  match containerOf d with
  | .error e => .error e
  | .ok c => if outCap < c.length then .error .outputOverflow else .ok c

/-- The original bytes of a parsed container (R79): Unpack, TreeBuild, Decode. -/
def originalOf (p : Parsed) : Except CmdError (List Byte) :=
  match unpack p.payload p.pad with
  | .error e => .error e
  | .ok u =>
    match treeBuild p.entries with
    | .error e => .error e
    | .ok root => decodeBits root p.len u

/-- DECOMPRESS on a container that fits IN (R79): OUTPUT_OVERFLOW when L > OUT_CAP, before the padding is
looked at (R85). -/
def decompressBytes (outCap : Nat) (c : List Byte) : Except CmdError (List Byte) :=
  match parse c with
  | .error e => .error e
  | .ok p => if outCap < p.len then .error .outputOverflow else originalOf p

/-- Compress() (R78). -/
def State.compressResult (s : State) : Except CmdError (List Byte) :=
  if s.inCapacity < s.inputLength then .error .badLength else compressBytes s.outCapacity s.input

/-- Decompress() (R79). -/
def State.decompressResult (s : State) : Except CmdError (List Byte) :=
  if s.inCapacity < s.inputLength then .error .badLength else decompressBytes s.outCapacity s.input

/-- The completion step of a COMPRESS (R77, R78). -/
def execCompress (s : State) : Host.Outcome State Fault Refusal :=
  .next (s.complete s.compressResult)

/-- The completion step of a DECOMPRESS (R77, R79). -/
def execDecompress (s : State) : Host.Outcome State Fault Refusal :=
  .next (s.complete s.decompressResult)

end Sys2Proof.Machine
end

