-- ==== Sys2Proof/Machine/Flags.lean ====
section
/-! DEFINITION. The status flags, the words STATUS and CTRL read as, and the interrupt output
(spec/10_state.md, R14, R15, R22 to R24). -/

namespace Sys2Proof.Machine

open Sys2Proof (Word)

/-- STATUS.BUSY: 1 exactly when the phase is BUSY(w) (R22). -/
def State.isBusy (s : State) : Bool :=
  match s.phase with
  | .idle => false
  | .busy _ => true

/-- CTRL as it reads: bit 0 is IE, the rest 0 (R14). -/
def State.ctrlWord (s : State) : Word := (0#31 ++ BitVec.ofBool s.ie : BitVec 32)

/-- STATUS as it reads: bit 0 BUSY, bit 1 DONE, bits 11:8 ERR, the rest 0 (R15). -/
def State.statusWord (s : State) : Word :=
  (0#20 ++ s.err ++ 0#6 ++ BitVec.ofBool s.done ++ BitVec.ofBool s.isBusy : BitVec 32)

/-- The interrupt output irq = DONE and IE (R23). -/
def State.irq (s : State) : Bool := s.done && s.ie

/-- The host's write of `v` to CTRL: bit 0 goes to IE, the rest is ignored, whatever the phase (R14, R35). -/
def State.writeCtrl (s : State) (v : Word) : State := s.setIE (v.getLsbD 0)

/-- The host's write of `v` to STATUS: bit 1 clears DONE while BUSY = 0; nothing else happens (R15). -/
def State.writeStatus (s : State) (v : Word) : State :=
  if s.isBusy then s else if v.getLsbD 1 then s.acknowledge else s

end Sys2Proof.Machine
end

