-- ==== Sys2Proof/Machine/SlavePort.lean ====
section
/-! DEFINITION. The slave port (spec/20_memory.md, R27 to R36): the address map, the register file as the
host sees it, the two buffer windows, and the two transactions. -/

namespace Sys2Proof.Machine

open Sys2Proof (Byte Word)

/-! ### Address map -/

/-- The base of the IN window (R28). -/
def inBase : Nat := 0x40000000

/-- The base of the OUT window (R28). -/
def outBase : Nat := 0x80000000

/-- What an address names (R28). -/
inductive Place where
  /-- A byte offset in the register region. -/
  | reg (off : Nat)
  /-- Byte `i` of IN. -/
  | inWindow (i : Nat)
  /-- Byte `i` of OUT. -/
  | outWindow (i : Nat)
  /-- No region. -/
  | unmapped
  deriving DecidableEq, Repr

/-- The address map (R28). -/
def State.placeOf (s : State) (addr : Word) : Place :=
  let a := addr.toNat
  if a < 0x1000 then .reg a
  else if inBase ≤ a ∧ a < inBase + s.inCapacity then .inWindow (a - inBase)
  else if outBase ≤ a ∧ a < outBase + s.outCapacity then .outWindow (a - outBase)
  else .unmapped

/-- A register access has size 4 and an address that is a multiple of 4 (R29). -/
def regAccessOk (off : Nat) (z : Size) : Bool := z == .word && off % 4 == 0

/-- A window access at offset `i` is a multiple of its size and lies wholly inside the window of `cap`
bytes (R30).  Both bases are multiples of 4, so the address is aligned as the offset is. -/
def windowAccessOk (cap i : Nat) (z : Size) : Bool :=
  i % sizeBytes z == 0 && decide (i + sizeBytes z ≤ cap)

/-! ### Registers -/

/-- The registers (R11 to R19). -/
inductive Reg where
  | id
  | inCap
  | outCap
  | ctrl
  | status
  | cmd
  | inLen
  | outLen
  /-- An offset from 0x20 to 0xFFC (R19). -/
  | reserved
  deriving DecidableEq, Repr

/-- The register at an offset of the register region (R11 to R19). -/
def regAt (off : Nat) : Reg :=
  if off = 0x00 then .id
  else if off = 0x04 then .inCap
  else if off = 0x08 then .outCap
  else if off = 0x0C then .ctrl
  else if off = 0x10 then .status
  else if off = 0x14 then .cmd
  else if off = 0x18 then .inLen
  else if off = 0x1C then .outLen
  else .reserved

/-- The constant the ID register reads as (R11). -/
def idValue : Word := 0x48554631#32

/-- What a register reads as (R11 to R19): ID is constant, CMD and the reserved offsets read 0. -/
def State.readReg (s : State) : Reg → Word
  | .id => idValue
  | .inCap => s.inCap
  | .outCap => s.outCap
  | .ctrl => s.ctrlWord
  | .status => s.statusWord
  | .cmd => 0#32
  | .inLen => s.inLen
  | .outLen => s.outLen
  | .reserved => 0#32

/-- The host's write of `v` to CMD: it starts the command in IDLE, whatever `v` is, and has no effect in
BUSY (R16, R35, R76). -/
def State.writeCmd (s : State) (v : Word) : State := if s.isBusy then s else s.start v

/-- The host's write of `v` to IN_LEN: no effect in BUSY (R17, R35). -/
def State.writeInLen (s : State) (v : Word) : State := if s.isBusy then s else s.setInLen v

/-- The host's write of `v` to a register (R11 to R19): writes to read-only registers and to reserved
offsets are ignored. -/
def State.writeReg (s : State) (v : Word) : Reg → State
  | .id => s
  | .inCap => s
  | .outCap => s
  | .ctrl => s.writeCtrl v
  | .status => s.writeStatus v
  | .cmd => s.writeCmd v
  | .inLen => s.writeInLen v
  | .outLen => s
  | .reserved => s

/-! ### Transactions -/

/-- A legal read of a buffer window (R30, R31): the bytes from `i` on while IDLE; while BUSY any value,
drawn afresh for this read (R35). -/
def State.readWindow (s : State) (z : Size) (byte : Nat → Byte) (i : Nat) : Answer × State :=
  if s.isBusy then (.read (datumOfBytes z (Config.freeByte s.draws)) .okay, s.afterDraw)
  else (.read (datumOfBytes z (fun k => byte (i + k))) .okay, s)

/-- A read that answers ERROR returns data 0 and has no effect (R32). -/
def State.readError (s : State) (z : Size) : Answer × State := (.read (datumZero z) .error, s)

/-- Read(addr, size) (R27 to R32, R35). -/
def State.portRead (s : State) (addr : Word) (z : Size) : Answer × State :=
  match s.placeOf addr with
  | .reg off =>
    if regAccessOk off z then (.read (.word (s.readReg (regAt off))) .okay, s) else s.readError z
  | .inWindow i =>
    if windowAccessOk s.inCapacity i z then s.readWindow z s.inByte i else s.readError z
  | .outWindow i =>
    if windowAccessOk s.outCapacity i z then s.readWindow z s.outByte i else s.readError z
  | .unmapped => s.readError z

/-- A legal write to the IN window sets the named bytes; while BUSY it has no effect (R30, R35). -/
def State.writeIn (s : State) (i : Nat) (d : Datum) : State :=
  if s.isBusy then s else s.storeIn i (datumBytes d)

/-- The 32 bits of a datum as a register write takes them: only a 4-byte datum reaches a register (R29). -/
def datumWord : Datum → Word
  | .byte v => v.setWidth 32
  | .half v => v.setWidth 32
  | .word v => v

/-- Write(addr, size, data) (R27 to R32, R35). -/
def State.portWrite (s : State) (addr : Word) (d : Datum) : Answer × State :=
  match s.placeOf addr with
  | .reg off =>
    if regAccessOk off (datumSize d) then (.write .okay, s.writeReg (datumWord d) (regAt off))
    else (.write .error, s)
  | .inWindow i =>
    if windowAccessOk s.inCapacity i (datumSize d) then (.write .okay, s.writeIn i d)
    else (.write .error, s)
  | .outWindow _ => (.write .error, s)
  | .unmapped => (.write .error, s)

/-- One transaction of the slave port (R27). -/
def State.transact (s : State) : Transaction → Answer × State
  | .read addr z => s.portRead addr z
  | .write addr d => s.portWrite addr d

end Sys2Proof.Machine
end

