-- ==== Sys2Proof/Machine/HostProgram.lean ====
section
/-! DEFINITION. The host's turn (spec/20_memory.md, R36; spec/70_reset_and_hazards.md, R92) and the
notation of host programs (spec/30_encoding.md, R47, R48). -/

namespace Sys2Proof.Machine

open Sys2Proof (Byte Word)

/-! ### The host's turn -/

/-- One transaction takes its full effect, and its answer is recorded (R34, R36). -/
def State.perform (s : State) (t : Transaction) : State :=
  let r := s.transact t
  r.2.answer r.1

/-- The 32-bit data of an answer to a 4-byte read (R27); the data of an ERROR is 0 (R32). -/
def answerWord : Answer → Word
  | .read d _ => datumWord d
  | .write _ => 0#32

/-- Whether the read of a POLL ends it: (d AND mask) = value (R48). -/
def pollEnds (a : Answer) (mask value : Word) : Bool := (answerWord a &&& mask) == value

/-- The host does what it has next to do, if anything: a transaction; the read of a POLL, which stays next
until it ends (R48); the reset event (R92). -/
def State.act (s : State) : State :=
  match s.host with
  | [] => s
  | .access t :: rest => (s.setHost rest).perform t
  | .poll addr mask value :: rest =>
    let r := s.transact (.read addr .word)
    if pollEnds r.1 mask value then (r.2.answer r.1).setHost rest else r.2.answer r.1
  | .reset :: rest => (s.setHost rest).resetEvent

/-- A step in which the engine does not complete: in BUSY one host turn of the open delay passes, and the
host does what it has next to do.  In IDLE with nothing to do the machine waits (R92, R100). -/
def State.hostTurn (s : State) : State := s.tick.act

/-! ### The notation of host programs -/

/-- The symbolic addresses REG.NAME (R47). -/
def regAddr : Reg → Word
  | .id => 0x00#32
  | .inCap => 0x04#32
  | .outCap => 0x08#32
  | .ctrl => 0x0C#32
  | .status => 0x10#32
  | .cmd => 0x14#32
  | .inLen => 0x18#32
  | .outLen => 0x1C#32
  | .reserved => 0x20#32

/-- The symbolic address IN+i (R47). -/
def inAddr (i : Nat) : Word := BitVec.ofNat 32 (inBase + i)

/-- The symbolic address OUT+i (R47). -/
def outAddr (i : Nat) : Word := BitVec.ofNat 32 (outBase + i)

/-- WR8 addr, data (R47). -/
def wr8 (addr data : Word) : HostAction := .access (.write addr (.byte (data.extractLsb' 0 8)))

/-- WR16 addr, data (R47). -/
def wr16 (addr data : Word) : HostAction := .access (.write addr (.half (data.extractLsb' 0 16)))

/-- WR32 addr, data (R47). -/
def wr32 (addr data : Word) : HostAction := .access (.write addr (.word data))

/-- RD8 addr (R47). -/
def rd8 (addr : Word) : HostAction := .access (.read addr .byte)

/-- RD16 addr (R47). -/
def rd16 (addr : Word) : HostAction := .access (.read addr .half)

/-- RD32 addr (R47). -/
def rd32 (addr : Word) : HostAction := .access (.read addr .word)

/-- POLL addr, mask, value (R48). -/
def pollUntil (addr mask value : Word) : HostAction := .poll addr mask value

/-- WAITDONE (R48). -/
def waitDone : HostAction := pollUntil (regAddr .status) 0x00000002#32 0x00000002#32

/-- START op (R48). -/
def startOp (op : Word) : HostAction := wr32 (regAddr .cmd) op

/-- REPEAT v = a .. b with the body `S` (R48); nothing if b < a. -/
def repeatFor (a b : Nat) (S : Nat → List HostAction) : List HostAction :=
  (List.range' a (b + 1 - a)).flatMap S

end Sys2Proof.Machine
end

