-- ==== Sys2Proof/Machine/Step.lean ====
section
/-! DEFINITION. One step of the machine: the engine's completion when it is due (spec/45_container_codec.md,
R77; the word is decoded then, spec/30_encoding.md, R43), else a host turn (spec/20_memory.md, R36). -/

namespace Sys2Proof.Machine

open Sys2Proof (decode)

/-- One step.  When the completion of BUSY(w) is due, the engine decodes w and completes it, an illegal w
with ILLEGAL_COMMAND (R43, R44); otherwise the host's side moves. -/
def step (s : State) : Host.Outcome State Fault Refusal :=
  match s.dueCommand with
  | none => .next s.hostTurn
  | some w =>
    match decode w with
    | .ok i => exec i s
    | .error _ => .next s.completeIllegal

/-- `s` with the command word of `w`'s low `nbits` bits just started (R76) and its completion due, so that
the very next step decodes and runs it (log entry 7). -/
def State.withFetchWord (s : State) (nbits w : Nat) : State :=
  { s with
    phase := .busy (BitVec.ofNat 32 (w % 2 ^ nbits)), done := false, err := 0#4, outLen := 0#32
    wait := 0 }

end Sys2Proof.Machine
end

