-- ==== Sys2Proof/Safety.lean ====
section
/-! DEFINITION. What the statements speak of: the invariant of the machine, what two states must agree on for
a command to have one outcome, and the entries and the sizes of a container in terms of the input. -/

namespace Sys2Proof.Machine

open Sys2Proof (Byte Word Bits)

/-- The capacities are in their range, 1 to 2^30 (R3). -/
def State.CapsOk (s : State) : Prop :=
  (1 ≤ s.inCap.toNat ∧ s.inCap.toNat ≤ 2 ^ 30) ∧ (1 ≤ s.outCap.toNat ∧ s.outCap.toNat ≤ 2 ^ 30)

/-- The values STATUS.ERR ever holds: 0 to 7 without 2 (R83, U13). -/
def errCodes : List (BitVec 4) := [0#4, 1#4, 3#4, 4#4, 5#4, 6#4, 7#4]

/-- The invariant of the machine. -/
structure State.Inv (s : State) : Prop where
  /-- The parameters are in their range (R3). -/
  caps : s.CapsOk
  /-- The known bytes of IN are in canonical form and inside IN (R20). -/
  inMem_wf : Memory.wf s.inMem = true
  inMem_inside : ∀ c ∈ s.inMem, c.1 < s.inCap.toNat
  /-- The known bytes of OUT are in canonical form and inside OUT (R21). -/
  outMem_wf : Memory.wf s.outMem = true
  outMem_inside : ∀ c ∈ s.outMem, c.1 < s.outCap.toNat
  /-- ERR holds a code that R83 lets appear. -/
  err_code : s.err ∈ errCodes
  /-- OUT_LEN is at most OUT_CAP (R18). -/
  outLen_le : s.outLen.toNat ≤ s.outCap.toNat
  /-- An error leaves OUT_LEN = 0 (R18, R84). -/
  err_outLen : s.err ≠ 0#4 → s.outLen = 0#32
  /-- While BUSY, DONE = 0, ERR = 0 and OUT_LEN = 0 (R35). -/
  busy_clear : s.isBusy = true → s.done = false ∧ s.err = 0#4 ∧ s.outLen = 0#32
  /-- The open delay runs only while BUSY (model's own). -/
  idle_wait : s.isBusy = false → s.wait = 0
  /-- The draws that IN and OUT hold are past ones, and two different ones (model's own). -/
  draws_past : s.inDraw < s.draws ∧ s.outDraw < s.draws ∧ s.inDraw ≠ s.outDraw

/-- Two states give a command the same operands (R46, R81): IN_LEN, IN[0..IN_LEN-1] and the capacities. -/
def State.SameOperands (s u : State) : Prop :=
  u.inCap = s.inCap ∧ u.outCap = s.outCap ∧ u.inLen = s.inLen ∧
    ∀ k, k < s.inLen.toNat → u.inByte k = s.inByte k

/-- Two states show the same outcome of a command (R81): ERR, OUT_LEN and OUT[0..OUT_LEN-1]. -/
def State.SameOutcome (t v : State) : Prop :=
  v.err = t.err ∧ v.outLen = t.outLen ∧ ∀ k, k < t.outLen.toNat → v.outByte k = t.outByte k

/-- What no completion and no transaction but the one that names it changes: the parameters, CTRL, IN_LEN,
every byte of IN, and the host's side. -/
def State.SameInputSide (s t : State) : Prop :=
  t.inCap = s.inCap ∧ t.outCap = s.outCap ∧ t.ie = s.ie ∧ t.inLen = s.inLen ∧
    (∀ i, t.inByte i = s.inByte i) ∧ t.host = s.host ∧ t.answers = s.answers

/-- The distinct symbols of an input in ascending order (R2, R50). -/
def symbolsOf (d : List Byte) : List Byte := allSymbols.filter (fun b => decide (b ∈ d))

/-- Each distinct symbol of an input, ascending, with the number of its occurrences (R50). -/
def entriesOf (d : List Byte) : List Entry :=
  (symbolsOf d).map (fun b => { sym := b, freq := d.count b })

/-- T: the total number of bits an input encodes to under a code table, from the frequencies (R66). -/
def totalBits (c : CodeTable) (es : List Entry) : Nat :=
  (es.map (fun e => e.freq * (codeOf c e.sym).length)).sum

/-- The size of a container of `n` pairs and `t` payload bits: 6 + 5N + ceil(T/8) (R82). -/
def containerSize (n t : Nat) : Nat := 6 + 5 * n + (t + 7) / 8

/-- The (symbol, frequency) pairs that stand in a container, in stored order (R71, R72). -/
def storedPairs (c : List Byte) : List Entry :=
  (List.range (symbolCount (byteAt c 4))).map
    (fun k => { sym := byteAt c (5 + 5 * k), freq := le32At c (6 + 5 * k) })

/-- The payload that stands in a container (R71). -/
def storedPayload (c : List Byte) : List Byte :=
  (c.drop (5 + 5 * symbolCount (byteAt c 4))).take (c.length - 6 - 5 * symbolCount (byteAt c 4))

/-- The padding byte that stands in a container: its last byte (R71). -/
def storedPad (c : List Byte) : Nat := (byteAt c (c.length - 1)).toNat

/-- The bits the unpacker leaves of the payload that stands in a container (R69). -/
def storedBits (c : List Byte) : Bits :=
  ((storedPayload c).flatMap bitsOfByte).take (8 * (storedPayload c).length - storedPad c)

/-- Every frequency is at least 1 and no symbol stands in two pairs (R74). -/
abbrev PairsOk (es : List Entry) : Prop := (∀ e ∈ es, 1 ≤ e.freq) ∧ (es.map Entry.sym).Nodup

/-- The state reset leaves (R92), with the parameters `cin` and `cout`: every register, the phase and irq
at their reset values, and every byte of IN and of OUT any value, each with a draw of its own. -/
def State.AfterReset (s : State) (cin cout : Word) : Prop :=
  s.readReg .id = 0x48554631#32 ∧ s.readReg .inCap = cin ∧ s.readReg .outCap = cout ∧
  s.readReg .ctrl = 0#32 ∧ s.readReg .status = 0#32 ∧ s.readReg .cmd = 0#32 ∧
  s.readReg .inLen = 0#32 ∧ s.readReg .outLen = 0#32 ∧ s.readReg .reserved = 0#32 ∧
  s.phase = .idle ∧ s.irq = false ∧
  ∃ d e, d ≠ e ∧ ∀ i, s.inByte i = Config.freeByte d i ∧ s.outByte i = Config.freeByte e i

/-- An access of `z` at offset `i` of a window of `cap` bytes is legal (R30): aligned and wholly inside. -/
def LegalAt (cap : Word) (i : Nat) (z : Size) : Prop :=
  i % sizeBytes z = 0 ∧ i + sizeBytes z ≤ cap.toNat

/-- A run is safe: every state it passes through meets the invariant and has a next state.  No step of this
machine stops. -/
def State.Safe (s : State) : Prop := s.Inv ∧ ∃ t, step s = .next t

end Sys2Proof.Machine
end

