-- ==== Sys2Proof/Certificates/Slice0/Obligations.lean ====
section
/-! DEFINITION. The statements for the provers.  Each docstring names the rule of the spec the statement
formalises, or says that it is the model's own. -/

open Sys2Proof Sys2Proof.Machine

/-! ### Reset and the whole machine -/

/-- R92: what reset leaves, and that the machine then waits in IDLE. -/
def Obligations.ResetLeavesResetValues : Prop :=
  State.reset.AfterReset Config.inCap Config.outCap ∧ step State.reset = .next State.reset

/-- R92, R93: the reset event, at any time the host's side moves, also while a command runs.  Which draws IN
and OUT get is the model's own (log entry 3): they are draws not used before. -/
def Obligations.ResetEventSetsResetState : Prop :=
  ∀ (s : State) (rest : List HostAction), s.dueCommand = none → s.host = .reset :: rest →
    ∃ t, step s = .next t ∧ t.AfterReset s.inCap s.outCap ∧ t.dueCommand = none ∧ t.host = rest ∧
      s.draws ≤ t.inDraw ∧ s.draws ≤ t.outDraw

/-- The invariant holds at reset. -/
def Obligations.ResetStateMeetsInvariant : Prop := State.reset.Inv

/-- Every step keeps the invariant: capacities in range (R3), buffers in canonical form inside their bounds
(R20, R21), ERR in {0, 1, 3, 4, 5, 6, 7} (R83, U13), OUT_LEN at most OUT_CAP (R18) and 0 after an error
(R84), DONE = ERR = OUT_LEN = 0 while BUSY (R35); and, the model's own (log entries 3 and 5), the delay only
in BUSY and the draws past and distinct. -/
def Obligations.StepKeepsInvariant : Prop :=
  ∀ (s t : State), s.Inv → step s = .next t → t.Inv

/-- "No behaviour of the HCC is modelled as a fault or stuck state" (93_implementation_defined.md, part 1). -/
def Obligations.EveryStepHasANextState : Prop := ∀ s : State, ∃ t, step s = .next t

/-- R11, R12, R13: ID always reads its constant, and IN_CAP and OUT_CAP always read the parameters: reset shows
them, they are 1 to 2^30, and no step and no write changes them. -/
def Obligations.ConstantRegistersNeverChange : Prop :=
  State.reset.CapsOk ∧ State.reset.inCap = Config.inCap ∧ State.reset.outCap = Config.outCap ∧
  (∀ (s t : State), step s = .next t → t.inCap = s.inCap ∧ t.outCap = s.outCap) ∧
  ∀ (s : State) (v : Word),
    s.portRead 0x00#32 .word = (.read (.word 0x48554631#32) .okay, s) ∧
    s.portWrite 0x00#32 (.word v) = (.write .okay, s) ∧
    s.portRead 0x04#32 .word = (.read (.word s.inCap) .okay, s) ∧
    s.portRead 0x08#32 .word = (.read (.word s.outCap) .okay, s) ∧
    s.portWrite 0x04#32 (.word v) = (.write .okay, s) ∧
    s.portWrite 0x08#32 (.word v) = (.write .okay, s)

/-! ### Commands are decoded and run -/

/-- R43, R77: when the completion of BUSY(w) is due and w is a command, the step runs just that command. -/
def Obligations.StepRunsDueCommand : Prop :=
  ∀ (s : State) (w : Word) (i : Instr), s.phase = .busy w → s.wait = 0 → decode w = .ok i →
    step s = exec i s

/-- R44: an illegal word completes with ILLEGAL_COMMAND, whatever IN_LEN and IN are. -/
def Obligations.IllegalWordCompletesWithError : Prop :=
  ∀ (s : State) (w : Word), s.phase = .busy w → s.wait = 0 → w ≠ 0x00000001#32 → w ≠ 0x00000002#32 →
    ∃ t, step s = .next t ∧ t.err = 5#4 ∧ t.outLen = 0#32 ∧ t.phase = .idle ∧ t.done = true ∧
      s.SameInputSide t ∧ ∀ k, t.outByte k = Config.freeByte s.draws k

/-- V1: words written out bit by bit from R41 and R42, and the words V1 gives as illegal.  The spec knows one
reason, illegal command (R44): the two named reasons, and that RSV is looked at first where both apply, are the
model's choice (log entry 18). -/
def Obligations.WrittenOutWordsDecode : Prop :=
  decode 0b00000000000000000000000000000001#32 = .ok .compress ∧
  decode 0b00000000000000000000000000000010#32 = .ok .decompress ∧
  decode 0x00000000#32 = .error (.opcodeNotAssigned 0x00000000#32) ∧
  decode 0x00000003#32 = .error (.opcodeNotAssigned 0x00000003#32) ∧
  decode 0x000000FF#32 = .error (.opcodeNotAssigned 0x000000FF#32) ∧
  decode 0x00000101#32 = .error (.reservedNotZero 0x00000101#32) ∧
  decode 0x80000001#32 = .error (.reservedNotZero 0x80000001#32) ∧
  decode 0xFFFFFFFF#32 = .error (.reservedNotZero 0xFFFFFFFF#32)

/-- R42: the two commands' words, and that the decoder accepts a word as a command exactly when it is that
command's word, so no two share one. -/
def Obligations.DecodeAcceptsExactlyTheTwoWords : Prop :=
  encode .compress = 0x00000001#32 ∧ encode .decompress = 0x00000002#32 ∧
    ∀ (w : Word) (i : Instr), decode w = .ok i ↔ w = encode i

/-- R76: a CMD write in IDLE starts the command, whatever the word; in BUSY it has no effect. -/
def Obligations.CmdWriteStartsCommand : Prop :=
  ∀ (s : State) (w : Word),
    (s.isBusy = false → ∃ t, s.portWrite 0x14#32 (.word w) = (.write .okay, t) ∧ t.phase = .busy w ∧
      t.readReg .status = 1#32 ∧ t.done = false ∧ t.err = 0#4 ∧ t.outLen = 0#32 ∧ t.irq = false ∧
      s.SameInputSide t ∧ ∀ k, t.outByte k = s.outByte k) ∧
    (s.isBusy = true → s.portWrite 0x14#32 (.word w) = (.write .okay, s))

/-- R77, R84, R98, the frame of both commands: a completion always has a next state; it changes nothing but
OUT, OUT_LEN and STATUS; DONE = 1 and the phase is IDLE, so irq is IE; ERR has a code R83 lets appear, an
error leaves OUT_LEN = 0, and every OUT byte from OUT_LEN on is any value, drawn anew. -/
def Obligations.CompletionFrame : Prop :=
  ∀ (i : Instr) (s : State), ∃ t, exec i s = .next t ∧ s.SameInputSide t ∧ t.phase = .idle ∧
    t.done = true ∧ t.irq = s.ie ∧ t.err ∈ errCodes ∧ (t.err ≠ 0#4 → t.outLen = 0#32) ∧
    t.outLen.toNat ≤ s.outCap.toNat ∧
    ∀ k, t.outLen.toNat ≤ k → t.outByte k = Config.freeByte s.draws k

/-- R37, R77, R100: a command that no reset abandons (R93) completes after its finite delay, and whatever else
the host does meanwhile, its outcome is the one its operands had when it ran from the start state at once; IN
and IN_LEN are unchanged.  That the delay counts host turns is the model's (log entry 5). -/
def Obligations.EveryCommandCompletes : Prop :=
  ∀ (s : State) (w : Word), s.phase = .busy w → HostAction.reset ∉ s.host →
    ∃ t u : State, Sys2Proof.core.run (s.wait + 1) s = .next t ∧
      step { s with wait := 0 } = .next u ∧ u.SameOutcome t ∧
      t.phase = .idle ∧ t.done = true ∧ t.inLen = s.inLen ∧ ∀ i, t.inByte i = s.inByte i

/-- R81: the outcome of a command, legal or not, is a function of its word, IN_LEN, IN[0..IN_LEN-1] and the
capacities alone. -/
def Obligations.OutcomeDependsOnOperandsAlone : Prop :=
  ∀ (w : Word) (s u : State), s.dueCommand = some w → u.dueCommand = some w → s.SameOperands u →
    ∃ t v, step s = .next t ∧ step u = .next v ∧ t.SameOutcome v

/-! ### The register file -/

/-- R11 to R19, R29: what a legal read of the register region answers, in every phase, at every offset. -/
def Obligations.RegisterReadsByOffset : Prop :=
  ∀ (s : State) (off : Nat), off < 0x1000 → off % 4 = 0 →
    s.portRead (BitVec.ofNat 32 off) .word =
      (.read (.word
        (if off = 0x00 then 0x48554631#32
         else if off = 0x04 then s.inCap
         else if off = 0x08 then s.outCap
         else if off = 0x0C then (if s.ie then 1#32 else 0#32)
         else if off = 0x10 then
           BitVec.ofNat 32 ((if s.isBusy then 1 else 0) + (if s.done then 2 else 0) + 256 * s.err.toNat)
         else if off = 0x14 then 0#32
         else if off = 0x18 then s.inLen
         else if off = 0x1C then s.outLen
         else 0#32)) .okay, s)

/-- R19: the reserved offsets read 0 and ignore writes, with OKAY; the reserved bits of CTRL and STATUS read
0 and ignore writes; IN_LEN is write-any-read-back, and no other register is: each has, in every state, a value
that does not read back.  With R18: a write to the read-only OUT_LEN has no effect, in every phase. -/
def Obligations.ReservedSpaceReadsZero : Prop :=
  (∀ (s : State) (off : Nat) (v : Word), 0x20 ≤ off → off < 0x1000 → off % 4 = 0 →
    s.portRead (BitVec.ofNat 32 off) .word = (.read (.word 0#32) .okay, s) ∧
    s.portWrite (BitVec.ofNat 32 off) (.word v) = (.write .okay, s)) ∧
  (∀ s : State, s.readReg .ctrl &&& 0xFFFFFFFE#32 = 0#32 ∧ s.readReg .status &&& 0xFFFFF0FC#32 = 0#32) ∧
  (∀ (s : State) (v : Word), s.writeReg v .ctrl = s.writeReg (v &&& 1#32) .ctrl ∧
    s.writeReg v .status = s.writeReg (v &&& 2#32) .status) ∧
  (∀ (s : State) (v : Word), s.isBusy = false → (s.writeReg v .inLen).readReg .inLen = v) ∧
  (∀ (s : State) (r : Reg), r ≠ .inLen → ∃ v, (s.writeReg v r).readReg r ≠ v) ∧
  ∀ (s : State) (v : Word), s.portWrite 0x1C#32 (.word v) = (.write .okay, s)

/-- R14: a CTRL write takes effect in every phase, stores bit 0 alone and changes nothing else; IE is part of
irq and of nothing else: every completion, of an illegal word too, and every transaction that is no access to
CTRL is the same with any IE, IE itself apart. -/
def Obligations.CtrlWriteSetsInterruptEnable : Prop :=
  State.reset.readReg .ctrl = 0#32 ∧
  ∀ (s : State) (v : Word), s.portWrite 0x0C#32 (.word v) = (.write .okay, { s with ie := v.getLsbD 0 }) ∧
    (s.writeReg v .ctrl).readReg .ctrl = v &&& 1#32 ∧
    (s.writeReg v .ctrl).irq = (s.done && v.getLsbD 0) ∧
    ∀ b : Bool,
      (∀ (i : Instr) (t : State), exec i s = .next t →
        exec i { s with ie := b } = .next { t with ie := b }) ∧
      (∀ (w : Word) (t : State), s.dueCommand = some w → step s = .next t →
        step { s with ie := b } = .next { t with ie := b }) ∧
      ∀ tr : Transaction, (∀ z, tr ≠ .read 0x0C#32 z) → (∀ d, tr ≠ .write 0x0C#32 d) →
        State.transact { s with ie := b } tr = ((s.transact tr).1, { (s.transact tr).2 with ie := b })

/-- R15, R87: the host's write of v to STATUS clears DONE, and so irq, exactly when BUSY = 0 and v[1] = 1; ERR
and OUT_LEN keep their values, and no other bit of v matters. -/
def Obligations.StatusWriteClearsDone : Prop :=
  ∀ (s : State) (v : Word),
    s.portWrite 0x10#32 (.word v) =
      (.write .okay, if s.isBusy = false ∧ v.getLsbD 1 = true then { s with done := false } else s) ∧
    (s.isBusy = false → v.getLsbD 1 = true → (s.writeReg v .status).irq = false)

/-- R17: IN_LEN takes every 32-bit value in IDLE and reads it back; a write while BUSY has no effect. -/
def Obligations.InLenWriteReadsBack : Prop :=
  ∀ (s : State) (v : Word),
    (s.isBusy = false → s.portWrite 0x18#32 (.word v) = (.write .okay, { s with inLen := v }) ∧
      ((s.portWrite 0x18#32 (.word v)).2.portRead 0x18#32 .word).1 = .read (.word v) .okay) ∧
    (s.isBusy = true → s.portWrite 0x18#32 (.word v) = (.write .okay, s))

/-! ### The slave port -/

/-- R28, R29, R30: exactly which accesses answer OKAY. -/
def Obligations.LegalAccessesAnswerOkay : Prop :=
  ∀ s : State, s.CapsOk →
    (∀ (addr : Word) (z : Size), (s.portRead addr z).1.resp = .okay ↔
      ((addr.toNat < 0x1000 ∧ z = .word ∧ addr.toNat % 4 = 0) ∨
       (0x40000000 ≤ addr.toNat ∧ addr.toNat % sizeBytes z = 0 ∧
         addr.toNat - 0x40000000 + sizeBytes z ≤ s.inCap.toNat) ∨
       (0x80000000 ≤ addr.toNat ∧ addr.toNat % sizeBytes z = 0 ∧
         addr.toNat - 0x80000000 + sizeBytes z ≤ s.outCap.toNat))) ∧
    (∀ (addr : Word) (d : Datum), (s.portWrite addr d).1.resp = .okay ↔
      ((addr.toNat < 0x1000 ∧ datumSize d = .word ∧ addr.toNat % 4 = 0) ∨
       (0x40000000 ≤ addr.toNat ∧ addr.toNat % sizeBytes (datumSize d) = 0 ∧
         addr.toNat - 0x40000000 + sizeBytes (datumSize d) ≤ s.inCap.toNat)))

/-- R32: a transaction that answers ERROR has no effect, and a read that does returns data 0. -/
def Obligations.ErrorAnswersHaveNoEffect : Prop :=
  ∀ (s : State) (t : Transaction), (s.transact t).1.resp = .error →
    (s.transact t).2 = s ∧
    ∀ (addr : Word) (z : Size), t = .read addr z → (s.transact t).1 = .read (datumZero z) .error

/-- R33: a read changes no state of the HCC.  The draw that a window read uses up while BUSY is the model's
own (log entry 4). -/
def Obligations.ReadsChangeNoState : Prop :=
  ∀ (s : State) (addr : Word) (z : Size), ∃ n,
    (s.portRead addr z).2 = { s with draws := n } ∧ (s.isBusy = false → n = s.draws)

/-- R30, R31: a legal write to the IN window in IDLE sets byte k of the access to data bits [8k+7:8k], leaves
every other byte of IN and all else as it was, and is read back by a read of the same size. -/
def Obligations.InWindowWriteThenRead : Prop :=
  ∀ (s : State) (i : Nat) (d : Datum), s.CapsOk → s.isBusy = false → LegalAt s.inCap i (datumSize d) →
    ∃ t, s.portWrite (inAddr i) d = (.write .okay, t) ∧ t = { s with inMem := t.inMem } ∧
      (∀ k, k < sizeBytes (datumSize d) → t.inByte (i + k) = (datumWord d).extractLsb' (8 * k) 8) ∧
      (∀ j, j < i ∨ i + sizeBytes (datumSize d) ≤ j → t.inByte j = s.inByte j) ∧
      t.portRead (inAddr i) (datumSize d) = (.read d .okay, t)

/-- R30, R31: a legal read of either window in IDLE, of every size and at every offset where it fits, returns the
bytes in place, byte k as data bits [8k+7:8k], and changes nothing; so a word read is le32 of its bytes, and the
halves and the bytes inside it are the bits of the word at their place. -/
def Obligations.WindowReadsAreLittleEndian : Prop :=
  ∀ (s : State) (i : Nat), s.CapsOk → s.isBusy = false →
    (∀ z, LegalAt s.inCap i z → s.portRead (inAddr i) z =
      (.read (datumOfBytes z (fun k => s.inByte (i + k))) .okay, s)) ∧
    (∀ z, LegalAt s.outCap i z → s.portRead (outAddr i) z =
      (.read (datumOfBytes z (fun k => s.outByte (i + k))) .okay, s)) ∧
    (LegalAt s.inCap i .word →
      ∃ v : Word, s.portRead (inAddr i) .word = (.read (.word v) .okay, s) ∧
        v.toNat = le32 (s.inByte i) (s.inByte (i + 1)) (s.inByte (i + 2)) (s.inByte (i + 3)) ∧
        s.portRead (inAddr i) .half = (.read (.half (v.extractLsb' 0 16)) .okay, s) ∧
        s.portRead (inAddr (i + 2)) .half = (.read (.half (v.extractLsb' 16 16)) .okay, s) ∧
        ∀ k, k < 4 → s.portRead (inAddr (i + k)) .byte = (.read (.byte (v.extractLsb' (8 * k) 8)) .okay, s)) ∧
    (LegalAt s.outCap i .word →
      ∃ v : Word, s.portRead (outAddr i) .word = (.read (.word v) .okay, s) ∧
        v.toNat = le32 (s.outByte i) (s.outByte (i + 1)) (s.outByte (i + 2)) (s.outByte (i + 3)) ∧
        s.portRead (outAddr i) .half = (.read (.half (v.extractLsb' 0 16)) .okay, s) ∧
        s.portRead (outAddr (i + 2)) .half = (.read (.half (v.extractLsb' 16 16)) .okay, s) ∧
        ∀ k, k < 4 → s.portRead (outAddr (i + k)) .byte = (.read (.byte (v.extractLsb' (8 * k) 8)) .okay, s))

/-- R35: every access while BUSY = 1.  The invariant rules out BUSY states that no run reaches.  The bytes of a
window read are the free values of a draw that no read before had: "any value, drawn afresh for each read". -/
def Obligations.AccessesWhileBusy : Prop :=
  ∀ s : State, s.Inv → s.isBusy = true →
    (∀ v : Word, s.portWrite 0x14#32 (.word v) = (.write .okay, s) ∧
      s.portWrite 0x18#32 (.word v) = (.write .okay, s) ∧
      s.portWrite 0x10#32 (.word v) = (.write .okay, s) ∧
      s.portWrite 0x0C#32 (.word v) = (.write .okay, { s with ie := v.getLsbD 0 })) ∧
    (∀ (off : Nat) (v : Word), off % 4 = 0 →
      (off ≤ 0x08 ∨ off = 0x1C ∨ (0x20 ≤ off ∧ off < 0x1000)) →
      s.portWrite (BitVec.ofNat 32 off) (.word v) = (.write .okay, s)) ∧
    (∀ (i : Nat) (d : Datum), LegalAt s.inCap i (datumSize d) →
      s.portWrite (inAddr i) d = (.write .okay, s)) ∧
    (∀ off : Nat, off < 0x1000 → off % 4 = 0 →
      s.portRead (BitVec.ofNat 32 off) .word = (.read (.word (s.readReg (regAt off))) .okay, s)) ∧
    s.readReg .status = 1#32 ∧ s.readReg .outLen = 0#32 ∧
    (∀ (i : Nat) (z : Size), LegalAt s.inCap i z → s.portRead (inAddr i) z =
      (.read (datumOfBytes z (Config.freeByte s.draws)) .okay, { s with draws := s.draws + 1 })) ∧
    (∀ (i : Nat) (z : Size), LegalAt s.outCap i z → s.portRead (outAddr i) z =
      (.read (datumOfBytes z (Config.freeByte s.draws)) .okay, { s with draws := s.draws + 1 }))

/-- R34, R36: a host turn with a transaction next performs just that one, whole, and records its answer.  The
list of answers, and that the delay may count the turn, are the model's (log entries 5 and 6). -/
def Obligations.TransactionsInIssueOrder : Prop :=
  ∀ (s : State) (tr : Transaction) (rest : List HostAction),
    s.dueCommand = none → s.host = .access tr :: rest →
    ∃ t, step s = .next t ∧
      t = { (s.transact tr).2 with
              host := rest, answers := (s.transact tr).1 :: s.answers, wait := t.wait }

/-- R48: the read of a POLL is a transaction like any other, and the POLL is done exactly when the data AND the
mask is the value.  That a POLL is one action that stays next until then, the list of answers, and that the delay
may count the turn, are the model's choice (log entries 13, 6 and 5). -/
def Obligations.PollRepeatsUntilItMatches : Prop :=
  ∀ (s : State) (addr mask value : Word) (rest : List HostAction),
    s.dueCommand = none → s.host = .poll addr mask value :: rest →
    ∃ t, step s = .next t ∧
      t = { (s.transact (.read addr .word)).2 with
              host := if answerWord (s.transact (.read addr .word)).1 &&& mask = value then rest else s.host
              answers := (s.transact (.read addr .word)).1 :: s.answers
              wait := t.wait }

/-! ### What changes the flags and the buffers, over all steps -/

/-- R15, R24: DONE is set by a completion alone, and cleared by a command start, by an acknowledging STATUS
write and by reset alone. -/
def Obligations.DoneChangesOnlyByItsEvents : Prop :=
  ∀ (s t : State), step s = .next t →
    (s.done = false → t.done = true → ∃ w, s.dueCommand = some w) ∧
    (s.done = true → t.done = false →
      (∃ w rest, s.host = .access (.write 0x14#32 (.word w)) :: rest ∧ s.isBusy = false) ∨
      (∃ v rest, s.host = .access (.write 0x10#32 (.word v)) :: rest ∧ v.getLsbD 1 = true ∧
        s.isBusy = false) ∨
      (∃ rest, s.host = .reset :: rest))

/-- R22, R24: BUSY is set by a CMD write in IDLE alone, with the word written, is cleared by a completion and by
reset alone, and the captured word does not change while BUSY. -/
def Obligations.BusyChangesOnlyByItsEvents : Prop :=
  ∀ (s t : State), step s = .next t →
    (s.isBusy = false → t.isBusy = true →
      ∃ w rest, s.host = .access (.write 0x14#32 (.word w)) :: rest ∧ t.phase = .busy w) ∧
    (s.isBusy = true → t.isBusy = false →
      (∃ w, s.dueCommand = some w) ∨ (s.dueCommand = none ∧ ∃ rest, s.host = .reset :: rest)) ∧
    (s.isBusy = true → t.isBusy = true → t.phase = s.phase)

/-- R15, R18, R24, R87: ERR and OUT_LEN change at a completion, and else only to 0, at a command start and at
reset; an acknowledge, among the rest, leaves them. -/
def Obligations.ErrAndOutLenChangeOnlyByTheirEvents : Prop :=
  ∀ (s t : State), step s = .next t → (t.err ≠ s.err ∨ t.outLen ≠ s.outLen) →
    (∃ w, s.dueCommand = some w) ∨
    (s.dueCommand = none ∧ t.err = 0#4 ∧ t.outLen = 0#32 ∧
      ((∃ w rest, s.host = .access (.write 0x14#32 (.word w)) :: rest ∧ s.isBusy = false) ∨
       (∃ rest, s.host = .reset :: rest)))

/-- R23, R86, R99: irq rises only at a completion with IE = 1, or at the write that sets IE with DONE = 1. -/
def Obligations.IrqRisesOnlyAtCompletionOrEnable : Prop :=
  ∀ (s t : State), step s = .next t → s.irq = false → t.irq = true →
    (∃ w, s.dueCommand = some w ∧ s.ie = true) ∨
    (s.done = true ∧ ∃ v rest, s.host = .access (.write 0x0C#32 (.word v)) :: rest ∧ v.getLsbD 0 = true)

/-- R20, R37, R40: while a command runs, and at its completion, no step but reset changes IN or IN_LEN. -/
def Obligations.InputFixedWhileBusy : Prop :=
  ∀ (s t : State), s.isBusy = true → step s = .next t →
    (t.inLen = s.inLen ∧ ∀ i, t.inByte i = s.inByte i) ∨
    (s.dueCommand = none ∧ ∃ rest, s.host = .reset :: rest)

/-- R21, R98: only a completion and reset change OUT: through every other step each byte keeps its value,
drawn ones too. -/
def Obligations.OutStableBetweenCompletions : Prop :=
  ∀ (s t : State), step s = .next t → s.dueCommand = none → (∀ rest, s.host ≠ .reset :: rest) →
    ∀ k, t.outByte k = s.outByte k

/-! ### COMPRESS -/

/-- R71, R72, R73, R78: COMPRESS of a non-empty input that fits writes the container: the length, N mod 256,
each distinct symbol in ascending order with its count, the packed codes, the padding count. -/
def Obligations.CompressWritesTheContainer : Prop :=
  ∀ (s : State) (root : Tree), 1 ≤ s.inLen.toNat → s.inLen.toNat ≤ s.inCap.toNat →
    treeBuild (entriesOf s.input) = .ok root →
    containerSize (symbolsOf s.input).length (encodeBits (codeGen root) s.input).length ≤ s.outCap.toNat →
    ∃ t, exec .compress s = .next t ∧ t.err = 0#4 ∧ t.done = true ∧ t.phase = .idle ∧
      t.outLen.toNat =
        containerSize (symbolsOf s.input).length (encodeBits (codeGen root) s.input).length ∧
      t.result = u32le s.inLen.toNat ++ [BitVec.ofNat 8 ((symbolsOf s.input).length % 256)] ++
        (symbolsOf s.input).flatMap (fun b => b :: u32le (s.input.count b)) ++
        (pack (encodeBits (codeGen root) s.input)).1 ++
        [BitVec.ofNat 8 (padCount (encodeBits (codeGen root) s.input).length)]

/-- R51, R78, R83, R85: the three errors of COMPRESS, each where it applies and no earlier one does. -/
def Obligations.CompressErrors : Prop :=
  ∀ s : State,
    (s.inCap.toNat < s.inLen.toNat →
      ∃ t, exec .compress s = .next t ∧ t.err = 6#4 ∧ t.outLen = 0#32) ∧
    (s.inLen.toNat = 0 → ∃ t, exec .compress s = .next t ∧ t.err = 1#4 ∧ t.outLen = 0#32) ∧
    (∀ root, 1 ≤ s.inLen.toNat → s.inLen.toNat ≤ s.inCap.toNat →
      treeBuild (entriesOf s.input) = .ok root →
      s.outCap.toNat <
        containerSize (symbolsOf s.input).length (encodeBits (codeGen root) s.input).length →
      ∃ t, exec .compress s = .next t ∧ t.err = 7#4 ∧ t.outLen = 0#32)

/-- R82: the sizes of a container of COMPRESS, from the frequencies and the code lengths, and the length of
what DECOMPRESS gives. -/
def Obligations.SizesOfResults : Prop :=
  (∀ (s t : State), exec .compress s = .next t → t.err = 0#4 →
    ∃ root, treeBuild (entriesOf s.input) = .ok root ∧
      t.outLen.toNat = 6 + 5 * (entriesOf s.input).length +
        (totalBits (codeGen root) (entriesOf s.input) + 7) / 8 ∧
      12 ≤ t.outLen.toNat ∧
      (t.outByte (t.outLen.toNat - 1)).toNat =
        (8 - totalBits (codeGen root) (entriesOf s.input) % 8) % 8 ∧
      8 * (t.outLen.toNat - 6 - 5 * (entriesOf s.input).length) -
          (t.outByte (t.outLen.toNat - 1)).toNat =
        totalBits (codeGen root) (entriesOf s.input)) ∧
  (∀ (s t : State), exec .decompress s = .next t → t.err = 0#4 → t.outLen.toNat = le32At s.input 0)

/-! ### DECOMPRESS -/

/-- R74, R75, R79: DECOMPRESS of a container that passes every check writes the decoded bytes. -/
def Obligations.DecompressWritesTheOriginal : Prop :=
  ∀ (s : State) (root : Tree) (d : List Byte),
    s.inLen.toNat ≤ s.inCap.toNat → 5 ≤ s.inLen.toNat →
    6 + 5 * symbolCount (byteAt s.input 4) ≤ s.inLen.toNat →
    PairsOk (storedPairs s.input) → totalFreq (storedPairs s.input) = le32At s.input 0 →
    le32At s.input 0 ≤ s.outCap.toNat →
    storedPad s.input ≤ 7 → storedPad s.input ≤ 8 * (storedPayload s.input).length →
    treeBuild (storedPairs s.input) = .ok root →
    decodeBits root (le32At s.input 0) (storedBits s.input) = .ok d →
    ∃ t, exec .decompress s = .next t ∧ t.err = 0#4 ∧ t.done = true ∧ t.phase = .idle ∧
      t.outLen.toNat = le32At s.input 0 ∧ t.result = d

/-- R74, R75, R79, R85: the one code DECOMPRESS reports, decided by the first check that fails. -/
def Obligations.DecompressErrorPriority : Prop :=
  ∀ s : State, ∃ t, exec .decompress s = .next t ∧
    if s.inCap.toNat < s.inLen.toNat then t.err = 6#4
    else if s.inLen.toNat < 5 then t.err = 3#4
    else if s.inLen.toNat < 6 + 5 * symbolCount (byteAt s.input 4) then t.err = 3#4
    else if ¬ PairsOk (storedPairs s.input) then t.err = 3#4
    else if totalFreq (storedPairs s.input) ≠ le32At s.input 0 then t.err = 3#4
    else if s.outCap.toNat < le32At s.input 0 then t.err = 7#4
    else if 7 < storedPad s.input ∨ 8 * (storedPayload s.input).length < storedPad s.input then t.err = 4#4
    else ∃ root, treeBuild (storedPairs s.input) = .ok root ∧
      ((∃ d, decodeBits root (le32At s.input 0) (storedBits s.input) = .ok d ∧ t.err = 0#4) ∨
       ((∀ d, decodeBits root (le32At s.input 0) (storedBits s.input) ≠ .ok d) ∧ t.err = 3#4))

/-- R80: DECOMPRESS of what COMPRESS wrote, in any state of an instance whose buffers hold both, gives the
input back. -/
def Obligations.RoundTrip : Prop :=
  ∀ (s t : State), exec .compress s = .next t → t.err = 0#4 →
    ∀ u : State, u.inLen = t.outLen → (∀ k, k < t.outLen.toNat → u.inByte k = t.outByte k) →
      t.outLen.toNat ≤ u.inCap.toNat → s.inLen.toNat ≤ u.outCap.toNat →
      ∃ v, exec .decompress u = .next v ∧ v.err = 0#4 ∧ v.outLen = s.inLen ∧
        ∀ k, k < s.inLen.toNat → v.outByte k = s.inByte k

/-! ### The data path -/

/-- R52: the laws of the frequency table. -/
def Obligations.FrequencyTableLaws : Prop :=
  ∀ d : List Byte, 1 ≤ d.length → d.length ≤ 2 ^ 30 →
    ∃ es, freqTable d = .ok es ∧ (∀ e ∈ es, 1 ≤ e.freq ∧ e.freq ≤ d.length ∧ e.freq ≤ 2 ^ 30) ∧
      es.Pairwise (fun e f => e.sym.toNat < f.sym.toNat) ∧
      totalFreq es = d.length ∧ 1 ≤ es.length ∧ es.length ≤ min d.length 256

/-- R55: a removal takes the one node whose key is less than every other's, and leaves the others. -/
def Obligations.RemovalTakesTheLeastKey : Prop :=
  ∀ (q r : List Tree) (a : Tree), (q.map Tree.index).Nodup → extractMin q = some (a, r) →
    q.Perm (a :: r) ∧ ∀ m ∈ r, a.weight < m.weight ∨ (a.weight = m.weight ∧ a.index < m.index)

/-- R56, R57: one iteration of the merge loop takes the two nodes of least key, the least as the left child
and the next as the right, and puts back their internal node with the exact sum as its weight. -/
def Obligations.MergeTakesTheTwoLeastKeys : Prop :=
  ∀ (n : Nat) (q : List Tree), 2 ≤ q.length → (q.map Tree.index).Nodup →
    ∃ a b r, q.Perm (a :: b :: r) ∧ mergeStep n q = .node n a b (a.weight + b.weight) :: r ∧
      (a.weight < b.weight ∨ (a.weight = b.weight ∧ a.index < b.index)) ∧
      ∀ m ∈ r, b.weight < m.weight ∨ (b.weight = m.weight ∧ b.index < m.index)

/-- R54, R56, R60: N entries give 2N - 1 nodes with the indices 0 to 2N - 2, the leaves the entries in order,
each internal node's children with smaller indices, the root 2N - 2, and leaf depths from 1 to N - 1. -/
def Obligations.TreeStructure : Prop :=
  ∀ es : List Entry, es ≠ [] →
    ∃ root, treeBuild es = .ok root ∧ root.index = 2 * es.length - 2 ∧
      (root.arena.map Prod.fst).Perm (List.range (2 * es.length - 1)) ∧
      (∀ k s w, (k, ArenaNode.leaf s w) ∈ root.arena ↔ es[k]? = some { sym := s, freq := w }) ∧
      (∀ i l r w, (i, ArenaNode.internal l r w) ∈ root.arena → l < i ∧ r < i) ∧
      (2 ≤ es.length → ∀ p ∈ walk root [], 1 ≤ p.2.length ∧ p.2.length ≤ es.length - 1)

/-- R58: weights are exact sums, the root's is the sum of all, none is above it, so with a sum below 2^32
every weight fits 32 bits. -/
def Obligations.TreeWeights : Prop :=
  ∀ (es : List Entry) (root : Tree), treeBuild es = .ok root →
    root.weight = totalFreq es ∧
    (∀ n ∈ root.arena, n.2.weight ≤ root.weight ∧ (totalFreq es < 2 ^ 32 → n.2.weight < 2 ^ 32)) ∧
    (∀ i l r w, (i, ArenaNode.internal l r w) ∈ root.arena →
      ∃ a b, (l, a) ∈ root.arena ∧ (r, b) ∈ root.arena ∧ w = a.weight + b.weight)

/-- R64: the code of a single symbol is "0", so n copies of it encode to n bits 0, and DECOMPRESS takes only 0
bits under a leaf root. -/
def Obligations.SingleSymbolCode : Prop :=
  ∀ (s : Byte) (f : Nat) (u : Bits),
    treeBuild [{ sym := s, freq := f }] = .ok (.leaf 0 s f) ∧ codeGen (.leaf 0 s f) = [(s, [false])] ∧
    decodeSymbol (.leaf 0 s f) (false :: u) = .ok (s, u) ∧
    decodeSymbol (.leaf 0 s f) (true :: u) = .error .malformedContainer ∧
    ∀ n, encodeBits (codeGen (.leaf 0 s f)) (List.replicate n s) = List.replicate n false

/-- R65: the properties of the code table of N entries. -/
def Obligations.CodesArePrefixFreeAndComplete : Prop :=
  ∀ es : List Entry, es ≠ [] → es.length ≤ 256 →
    ∃ root, treeBuild es = .ok root ∧ ((codeGen root).map Prod.fst).Perm (es.map Entry.sym) ∧
      (∀ p ∈ codeGen root, 1 ≤ p.2.length ∧ p.2.length ≤ 255) ∧
      (codeGen root).Pairwise (fun p q => ¬ p.2 <+: q.2 ∧ ¬ q.2 <+: p.2) ∧
      (2 ≤ es.length →
        codeGen root = walk root [] ∧ (∀ p ∈ codeGen root, p.2.length ≤ es.length - 1) ∧
        ((codeGen root).map (fun p => (1 / 2 : ℚ) ^ p.2.length)).sum = 1 ∧
        ∀ u : Nat → Bool, ∃! p, p ∈ codeGen root ∧ p.2 = (List.range p.2.length).map u) ∧
      (es.length = 1 → (∀ p ∈ codeGen root, p.2 = [false]) ∧
        ∀ u : Nat → Bool, u 0 = true → ∀ p ∈ codeGen root, p.2 ≠ (List.range p.2.length).map u)

/-- R66: the length T of the encoded input is the sum of frequency times code length, and L ≤ T ≤ 255 L. -/
def Obligations.EncodedLength : Prop :=
  ∀ (d : List Byte) (root : Tree), treeBuild (entriesOf d) = .ok root →
    (encodeBits (codeGen root) d).length = totalBits (codeGen root) (entriesOf d) ∧
    d.length ≤ (encodeBits (codeGen root) d).length ∧
    (encodeBits (codeGen root) d).length ≤ 255 * d.length

/-- R68: the laws of Pack, bit by bit. -/
def Obligations.PackLaws : Prop :=
  ∀ s : Bits, (pack s).2 ≤ 7 ∧ (pack s).1.length = (s.length + 7) / 8 ∧
    8 * (pack s).1.length - (pack s).2 = s.length ∧ ((pack s).2 = 0 ↔ s.length % 8 = 0) ∧
    ∀ j k, j < (pack s).1.length → k < 8 →
      (byteAt (pack s).1 j).getLsbD (7 - k) = s.getD (8 * j + k) false

/-- R70: Unpack gives back what Pack packed; Pack gives back what Unpack unpacked exactly when p ≤ 7,
p ≤ 8B and the last p bits are 0. -/
def Obligations.PackAndUnpackAreInverse : Prop :=
  (∀ s : Bits, unpack (pack s).1 (pack s).2 = .ok s) ∧
  ∀ (p : List Byte) (n : Nat),
    (∃ u, unpack p n = .ok u ∧ pack u = (p, n)) ↔
      (n ≤ 7 ∧ n ≤ 8 * p.length ∧
        ∀ k, 8 * p.length - n ≤ k → k < 8 * p.length → (p.flatMap bitsOfByte)[k]? = some false)

/-- R75 and C1: a proper prefix of the encoded bits runs out before all symbols are decoded. -/
def Obligations.TruncatedBitsAreMalformed : Prop :=
  ∀ (es : List Entry) (root : Tree) (d : List Byte) (n : Nat), treeBuild es = .ok root →
    (∀ b ∈ d, b ∈ es.map Entry.sym) → n < (encodeBits (codeGen root) d).length →
    decodeBits root d.length ((encodeBits (codeGen root) d).take n) = .error .malformedContainer

/-- R75: decoding stops at the symbol count: bits after the encoded ones are ignored; and whatever decodes, its
encoding is what the decoder read, a prefix of the bits, and all its symbols are the table's. -/
def Obligations.LeftoverBitsAreIgnored : Prop :=
  ∀ (es : List Entry) (root : Tree), treeBuild es = .ok root →
    (∀ (d : List Byte) (extra : Bits), (∀ b ∈ d, b ∈ es.map Entry.sym) →
      decodeBits root d.length (encodeBits (codeGen root) d ++ extra) = .ok d) ∧
    ((es.map Entry.sym).Nodup → ∀ (n : Nat) (u : Bits) (d : List Byte), decodeBits root n u = .ok d →
      d.length = n ∧ (∀ b ∈ d, b ∈ es.map Entry.sym) ∧ encodeBits (codeGen root) d <+: u)

/-- R62, R72, R74: Parse recovers what Frame wrote: the length, the entries in their order, payload and
padding, for every N from 1 to 256. -/
def Obligations.ParseRecoversFrame : Prop :=
  ∀ (n : Nat) (es : List Entry) (payload : List Byte) (pad : Nat),
    1 ≤ es.length → es.length ≤ 256 → PairsOk es → totalFreq es = n → n < 2 ^ 32 → pad < 256 →
    parse (frame n es payload pad) = .ok { len := n, entries := es, payload := payload, pad := pad }

/-- R71, R74: what Parse accepts is the frame of what it returns, and it has checked the table. -/
def Obligations.ParseAcceptsOnlyContainers : Prop :=
  ∀ (c : List Byte) (p : Parsed), parse c = .ok p →
    c = frame p.len p.entries p.payload p.pad ∧ 1 ≤ p.entries.length ∧ p.entries.length ≤ 256 ∧
      PairsOk p.entries ∧ totalFreq p.entries = p.len ∧ p.len < 2 ^ 32
end

