-- ==== Sys2Proof/Laws/Packer.lean ====
section
/-! SUPPORT. The packer and the unpacker: bits of bytes and bytes of bits, and the length laws. -/

namespace Sys2Proof.Machine

open Sys2Proof (Byte Bits)

theorem bitsOfByte_length (b : Byte) : (bitsOfByte b).length = 8 := rfl

theorem bitsOfByte_byteOfBits (a b c d e f g h : Bool) :
    bitsOfByte (byteOfBits [a, b, c, d, e, f, g, h]) = [a, b, c, d, e, f, g, h] := by
  cases a <;> cases b <;> cases c <;> cases d <;> cases e <;> cases f <;> cases g <;> cases h <;> rfl

theorem byteOfBits_bitsOfByte (b : Byte) : byteOfBits (bitsOfByte b) = b := by
  revert b; decide

theorem exists_eight {s : Bits} (h : s.length = 8) :
    ∃ a b c d e f g i, s = [a, b, c, d, e, f, g, i] := by
  match s, h with
  | [a, b, c, d, e, f, g, i], _ => exact ⟨a, b, c, d, e, f, g, i, rfl⟩

theorem bitsOfByte_of_take {s : Bits} (h : 8 ≤ s.length) :
    bitsOfByte (byteOfBits (s.take 8)) = s.take 8 := by
  obtain ⟨a, b, c, d, e, f, g, i, hs⟩ := exists_eight (s := s.take 8) (by simp; omega)
  rw [hs, bitsOfByte_byteOfBits]

theorem packBytes_length (n : Nat) (s : Bits) : (packBytes n s).length = n := by
  induction n generalizing s with
  | zero => rfl
  | succ n ih => simp [packBytes, ih]

theorem packBytes_bits (n : Nat) (s : Bits) (h : s.length = 8 * n) :
    (packBytes n s).flatMap bitsOfByte = s := by
  induction n generalizing s with
  | zero => simp at h; simp [packBytes, h]
  | succ n ih =>
    rw [packBytes, List.flatMap_cons, bitsOfByte_of_take (by omega), ih _ (by simp; omega),
      List.take_append_drop]

theorem padCount_lt (t : Nat) : padCount t < 8 := Nat.mod_lt _ (by decide)

theorem padCount_dvd (t : Nat) : 8 * ((t + padCount t) / 8) = t + padCount t := by
  unfold padCount; omega

theorem pack_length (s : Bits) : (pack s).1.length = (s.length + 7) / 8 := by
  have := padCount_dvd s.length
  have := padCount_lt s.length
  simp only [pack, packBytes_length]
  omega

theorem pack_pad (s : Bits) : (pack s).2 = padCount s.length := rfl

/-- The bits of the packed bytes: the bit-string and then 0 bits. -/
theorem pack_bits (s : Bits) :
    (pack s).1.flatMap bitsOfByte = s ++ List.replicate (padCount s.length) false := by
  rw [pack]
  exact packBytes_bits _ _ (by rw [padCount_dvd]; simp)

theorem flatMap_bits_length (p : List Byte) : (p.flatMap bitsOfByte).length = 8 * p.length := by
  induction p with
  | nil => rfl
  | cons b p ih => simp [bitsOfByte_length, ih]; omega

/-- The unpacker gives the packed bits back. -/
theorem unpack_pack (s : Bits) : unpack (pack s).1 (pack s).2 = .ok s := by
  have h1 := padCount_lt s.length
  have h2 := flatMap_bits_length (pack s).1
  have h3 := pack_bits s
  rw [h3] at h2
  simp only [List.length_append, List.length_replicate] at h2
  have : ¬ (7 < (pack s).2) := by rw [pack_pad]; omega
  have : ¬ (8 * (pack s).1.length < (pack s).2) := by rw [pack_pad]; omega
  rw [unpack, if_neg ‹_›, if_neg ‹_›, h3, pack_pad, ← h2, Nat.add_sub_cancel]
  simp

end Sys2Proof.Machine
end

