-- ==== Sys2Proof/Laws/Tree.lean ====
section
/-! SUPPORT. The tree builder and the codes: what a removal takes, that a table that is not empty gives a
tree, one induction principle for the merge loop, and that a code leads the walk to its own leaf. -/

namespace Sys2Proof.Machine

open Sys2Proof (Byte Bits)

/-! ### Removing the least node -/

theorem extractMin_eq_none (q : List Tree) : extractMin q = none ↔ q = [] := by
  cases q with
  | nil => simp [extractMin]
  | cons t ts =>
    rw [extractMin]
    split
    · simp
    · split <;> simp

theorem extractMin_perm {q r : List Tree} {a : Tree} (h : extractMin q = some (a, r)) :
    q.Perm (a :: r) := by
  induction q generalizing a r with
  | nil => simp [extractMin] at h
  | cons t ts ih =>
    rw [extractMin] at h
    split at h
    next hn =>
      rw [extractMin_eq_none] at hn
      subst hn
      simp at h
      simp [h.1, h.2]
    next m rest hs =>
      split at h
      · simp at h; simp [h.1, h.2]
      · simp at h
        obtain ⟨rfl, rfl⟩ := h
        exact ((ih hs).cons t).trans (List.Perm.swap ..)

theorem extractMin_length {q r : List Tree} {a : Tree} (h : extractMin q = some (a, r)) :
    q.length = r.length + 1 := by simpa using (extractMin_perm h).length_eq

/-! ### The merge loop -/

/-- What one iteration does, up to the order of Q. -/
theorem mergeStep_spec (n : Nat) (q : List Tree) (h : 2 ≤ q.length) :
    ∃ a b r, q.Perm (a :: b :: r) ∧ mergeStep n q = mergeNode n a b :: r := by
  rw [mergeStep]
  rcases h1 : extractMin q with _ | ⟨a, q1⟩
  · rw [extractMin_eq_none] at h1; simp [h1] at h
  · have l1 := extractMin_length h1
    rcases h2 : extractMin q1 with _ | ⟨b, q2⟩
    · rw [extractMin_eq_none] at h2; simp [h2] at l1; omega
    · exact ⟨a, b, q2, (extractMin_perm h1).trans ((extractMin_perm h2).cons a), by simp [h2]⟩

/-- The induction of the merge loop, once: what holds of Q, whatever its order, and is kept by a merge,
holds after every number of merges. -/
theorem mergeLoop_induct {I : Nat → List Tree → Prop}
    (perm : ∀ n q q', q.Perm q' → I n q → I n q')
    (merge : ∀ n a b r, I n (a :: b :: r) → I (n + 1) (mergeNode n a b :: r)) :
    ∀ k n q, k < q.length → I n q → I (n + k) (mergeLoop k n q) ∧ (mergeLoop k n q).length = q.length - k
  | 0, n, q, _, h => ⟨h, rfl⟩
  | k + 1, n, q, hk, h => by
    obtain ⟨a, b, r, hp, hm⟩ := mergeStep_spec n q (by omega)
    have hl : q.length = r.length + 2 := by simpa using hp.length_eq
    rw [mergeLoop, hm]
    have := mergeLoop_induct perm merge k (n + 1) (mergeNode n a b :: r) (by simp; omega)
      (merge _ _ _ _ (perm _ _ _ hp h))
    rw [show n + (k + 1) = n + 1 + k by omega]
    refine ⟨this.1, ?_⟩
    rw [this.2]; simp; omega

theorem leavesFrom_length (es : List Entry) (k : Nat) : (leavesFrom k es).length = es.length := by
  induction es generalizing k with
  | nil => rfl
  | cons e es ih => simp [leavesFrom, ih]

/-- A table that is not empty gives a tree, and what every merge keeps holds of the one node left. -/
theorem treeBuild_induct {I : Nat → List Tree → Prop} {es : List Entry} (hne : es ≠ [])
    (perm : ∀ n q q', q.Perm q' → I n q → I n q')
    (merge : ∀ n a b r, I n (a :: b :: r) → I (n + 1) (mergeNode n a b :: r))
    (start : I es.length (leavesFrom 0 es)) :
    ∃ root, treeBuild es = .ok root ∧ I (es.length + (es.length - 1)) [root] := by
  have hpos : 0 < es.length := List.length_pos_iff.2 hne
  obtain ⟨h1, h2⟩ := mergeLoop_induct perm merge (es.length - 1) es.length (leavesFrom 0 es)
    (by rw [leavesFrom_length]; omega) start
  rw [leavesFrom_length] at h2
  rw [treeBuild]
  generalize mergeLoop (es.length - 1) es.length (leavesFrom 0 es) = q at h1 h2
  match q, h1, h2 with
  | [], _, h2 => simp at h2; omega
  | [root], h1, _ => exact ⟨root, rfl, h1⟩
  | _ :: _ :: _, _, h2 => simp at h2; omega

theorem treeBuild_ok {es : List Entry} (hne : es ≠ []) : ∃ root, treeBuild es = .ok root :=
  let ⟨root, h, _⟩ := treeBuild_induct (I := fun _ _ => True) hne (fun _ _ _ _ _ => trivial)
    (fun _ _ _ _ _ => trivial) trivial
  ⟨root, h⟩

/-- `treeBuild_induct` for a tree that is given. -/
theorem treeBuild_inv {I : Nat → List Tree → Prop} {es : List Entry} {root : Tree}
    (h : treeBuild es = .ok root)
    (perm : ∀ n q q', q.Perm q' → I n q → I n q')
    (merge : ∀ n a b r, I n (a :: b :: r) → I (n + 1) (mergeNode n a b :: r))
    (start : I es.length (leavesFrom 0 es)) : I (es.length + (es.length - 1)) [root] := by
  have hne : es ≠ [] := by rintro rfl; simp [treeBuild, mergeLoop, leavesFrom] at h
  obtain ⟨root', h', hI⟩ := treeBuild_induct hne perm merge start
  rw [h] at h'; cases h'; exact hI

/-! ### The walk and the codes -/

/-- The walk under a path is the walk from the empty path, each code behind the path. -/
theorem walk_path (t : Tree) (p : Bits) : walk t p = (walk t []).map (fun e => (e.1, p ++ e.2)) := by
  induction t generalizing p with
  | leaf i s w => simp [walk]
  | node i l r w ihl ihr =>
    rw [walk, walk, ihl (p ++ [false]), ihr (p ++ [true]), ihl ([] ++ [false]), ihr ([] ++ [true])]
    simp [Function.comp_def]

theorem walk_node (i w : Nat) (l r : Tree) :
    walk (.node i l r w) [] = (walk l []).map (fun e => (e.1, false :: e.2)) ++
      (walk r []).map (fun e => (e.1, true :: e.2)) := by
  rw [walk, walk_path l, walk_path r]; rfl

/-- The symbols of the walk: one for each leaf. -/
def Tree.syms : Tree → List Byte
  | .leaf _ s _ => [s]
  | .node _ l r _ => l.syms ++ r.syms

theorem walk_syms (t : Tree) (p : Bits) : (walk t p).map Prod.fst = t.syms := by
  induction t generalizing p with
  | leaf i s w => simp [walk, Tree.syms]
  | node i l r w ihl ihr => simp [walk, Tree.syms, ihl, ihr]

theorem codeGen_syms (t : Tree) : (codeGen t).map Prod.fst = t.syms := by
  cases t with
  | leaf i s w => rfl
  | node i l r w => exact walk_syms _ _

theorem leavesFrom_syms (es : List Entry) (k : Nat) :
    (leavesFrom k es).flatMap Tree.syms = es.map Entry.sym := by
  induction es generalizing k with
  | nil => rfl
  | cons e es ih => simp [leavesFrom, Tree.syms, ih]

/-- The leaves of the tree are the entries. -/
theorem treeBuild_syms {es : List Entry} {root : Tree} (h : treeBuild es = .ok root) :
    root.syms.Perm (es.map Entry.sym) := by
  have := treeBuild_inv (I := fun _ q => (q.flatMap Tree.syms).Perm (es.map Entry.sym)) h
    (fun _ q q' hp hq => (hp.flatMap_right _).symm.trans hq)
    (fun n a b r hq => by simpa [mergeNode, Tree.syms] using hq)
    (by rw [leavesFrom_syms])
  simpa using this

/-- The walk from a node along one of its codes ends at the code's leaf and takes just the code. -/
theorem descend_walk (t : Tree) {s : Byte} {c : Bits} (h : (s, c) ∈ walk t []) (u : Bits) :
    descend t (c ++ u) = .ok (s, u) := by
  induction t generalizing c with
  | leaf i s' w => simp [walk] at h; simp [descend, h]
  | node i l r w ihl ihr =>
    rw [walk_node, List.mem_append] at h
    rcases h with h | h
    · obtain ⟨⟨s1, c1⟩, h1, h2⟩ := List.mem_map.1 h
      simp at h2; obtain ⟨rfl, rfl⟩ := h2
      simpa [descend] using ihl h1
    · obtain ⟨⟨s1, c1⟩, h1, h2⟩ := List.mem_map.1 h
      simp at h2; obtain ⟨rfl, rfl⟩ := h2
      simpa [descend] using ihr h1

/-- Decoding one symbol takes just its code, also under a leaf root. -/
theorem decodeSymbol_code (t : Tree) {s : Byte} {c : Bits} (h : (s, c) ∈ codeGen t) (u : Bits) :
    decodeSymbol t (c ++ u) = .ok (s, u) := by
  cases t with
  | leaf i s' w => simp [codeGen] at h; simp [decodeSymbol, h]
  | node i l r w => exact descend_walk _ h u

theorem codeOf_mem {c : CodeTable} {s : Byte} (h : s ∈ c.map Prod.fst) : (s, codeOf c s) ∈ c := by
  induction c with
  | nil => simp at h
  | cons e c ih =>
    obtain ⟨s', p⟩ := e
    by_cases hs : s = s'
    · subst hs; simp [codeOf, List.lookup]
    · have hb : (s == s') = false := by simpa using hs
      have h' : s ∈ c.map Prod.fst := by simpa [hs] using h
      have := ih h'
      rw [codeOf] at this ⊢
      rw [List.lookup, hb]
      exact List.mem_cons_of_mem _ this

/-- Decoding the codes of symbols of the tree gives the symbols, whatever bits follow. -/
theorem decodeBits_encodeBits (t : Tree) (d : List Byte) (h : ∀ s ∈ d, s ∈ t.syms) (u : Bits) :
    decodeBits t d.length (encodeBits (codeGen t) d ++ u) = .ok d := by
  induction d with
  | nil => rfl
  | cons s d ih =>
    have hs : s ∈ (codeGen t).map Prod.fst := by rw [codeGen_syms]; exact h s (by simp)
    have h1 := decodeSymbol_code t (codeOf_mem hs) (encodeBits (codeGen t) d ++ u)
    have h2 := ih (fun x hx => h x (by simp [hx]))
    simp only [encodeBits, List.flatMap_cons, List.length_cons, decodeBits, List.append_assoc] at h1 h2 ⊢
    simp only [h1, h2]

/-- Decoding gives as many symbols as asked for. -/
theorem decodeBits_length {t : Tree} {n : Nat} {u : Bits} {d : List Byte}
    (h : decodeBits t n u = .ok d) : d.length = n := by
  induction n generalizing u d with
  | zero => simp [decodeBits] at h; simp [← h]
  | succ n ih =>
    rw [decodeBits] at h
    split at h
    · cases h
    · split at h
      · cases h
      next he => cases h; simp [ih he]

theorem codeGen_ne_nil (t : Tree) {s : Byte} {c : Bits} (h : (s, c) ∈ codeGen t) : c ≠ [] := by
  cases t with
  | leaf i s' w => simp [codeGen] at h; simp [h.2]
  | node i l r w =>
    rw [codeGen, walk_node, List.mem_append, List.mem_map, List.mem_map] at h
    rcases h with ⟨e, _, he⟩ | ⟨e, _, he⟩ <;> (simp at he; simp [← he.2])

/-! ### The shape of the tree -/

/-- Every internal node has children of smaller index and the sum of their weights. -/
def Tree.Ok : Tree → Prop
  | .leaf _ _ _ => True
  | .node i l r w => l.index < i ∧ r.index < i ∧ w = l.weight + r.weight ∧ Tree.Ok l ∧ Tree.Ok r

/-- A tree's own node is in its arena. -/
theorem arena_self (t : Tree) : ∃ a, (t.index, a) ∈ t.arena ∧ a.weight = t.weight := by
  cases t with
  | leaf i s w => exact ⟨.leaf s w, by simp [Tree.arena, Tree.index], rfl⟩
  | node i l r w => exact ⟨.internal l.index r.index w, by simp [Tree.arena, Tree.index], rfl⟩

/-- No weight is above the root's. -/
theorem arena_weight_le {t : Tree} (h : Tree.Ok t) : ∀ n ∈ t.arena, n.2.weight ≤ t.weight := by
  induction t with
  | leaf i s w =>
    intro n hn
    simp [Tree.arena] at hn
    subst hn
    simp [ArenaNode.weight, Tree.weight]
  | node i l r w ihl ihr =>
    obtain ⟨_, _, h3, h4, h5⟩ := h
    intro n hn
    simp only [Tree.arena, List.mem_cons, List.mem_append] at hn
    simp only [Tree.weight]
    rcases hn with rfl | hn | hn
    · exact Nat.le_refl _
    · have := ihl h4 n hn; omega
    · have := ihr h5 n hn; omega

/-- What the arena says of an internal node: its children's indices, and its weight. -/
theorem arena_internal {t : Tree} (h : Tree.Ok t) {i l r w : Nat}
    (hn : (i, ArenaNode.internal l r w) ∈ t.arena) :
    l < i ∧ r < i ∧ ∃ a b, (l, a) ∈ t.arena ∧ (r, b) ∈ t.arena ∧ w = a.weight + b.weight := by
  induction t with
  | leaf j s v => simp [Tree.arena] at hn
  | node j a b v iha ihb =>
    obtain ⟨h1, h2, h3, h4, h5⟩ := h
    simp only [Tree.arena, List.mem_cons, List.mem_append, Prod.mk.injEq,
      ArenaNode.internal.injEq] at hn ⊢
    rcases hn with ⟨rfl, rfl, rfl, rfl⟩ | hn | hn
    · obtain ⟨x, hx, hx'⟩ := arena_self a
      obtain ⟨y, hy, hy'⟩ := arena_self b
      exact ⟨h1, h2, x, y, .inr (.inl hx), .inr (.inr hy), by omega⟩
    · obtain ⟨p, q, x, y, hx, hy, e⟩ := iha h4 hn
      exact ⟨p, q, x, y, .inr (.inl hx), .inr (.inl hy), e⟩
    · obtain ⟨p, q, x, y, hx, hy, e⟩ := ihb h5 hn
      exact ⟨p, q, x, y, .inr (.inr hx), .inr (.inr hy), e⟩

theorem leavesFrom_ok (es : List Entry) (k : Nat) : ∀ t ∈ leavesFrom k es, Tree.Ok t := by
  induction es generalizing k with
  | nil => simp [leavesFrom]
  | cons e es ih =>
    intro t ht
    rcases List.mem_cons.1 ht with rfl | ht
    · trivial
    · exact ih _ _ ht

theorem leavesFrom_weight (es : List Entry) (k : Nat) :
    ((leavesFrom k es).map Tree.weight).sum = totalFreq es := by
  induction es generalizing k with
  | nil => rfl
  | cons e es ih =>
    have := ih (k + 1)
    simp [leavesFrom, totalFreq, Tree.weight] at this ⊢
    omega

theorem leavesFrom_index (es : List Entry) (k : Nat) :
    (leavesFrom k es).map Tree.index = List.range' k es.length := by
  induction es generalizing k with
  | nil => rfl
  | cons e es ih => simp [leavesFrom, Tree.index, ih, List.range'_succ]

theorem leavesFrom_index_lt (es : List Entry) (k : Nat) :
    ∀ t ∈ leavesFrom k es, t.index < k + es.length := by
  intro t ht
  have : t.index ∈ (leavesFrom k es).map Tree.index := List.mem_map_of_mem ht
  rw [leavesFrom_index] at this
  simp at this
  omega

/-- The tree of a table is well-formed, and its root weighs the sum of the frequencies. -/
theorem treeBuild_wf {es : List Entry} {root : Tree} (h : treeBuild es = .ok root) :
    Tree.Ok root ∧ root.weight = totalFreq es := by
  have := treeBuild_inv (I := fun n q => (∀ t ∈ q, Tree.Ok t ∧ t.index < n) ∧
    (q.map Tree.weight).sum = totalFreq es) h ?_ ?_ ?_
  · exact ⟨(this.1 root (by simp)).1, by simpa using this.2⟩
  · rintro n q q' hp ⟨h1, h2⟩
    exact ⟨fun t ht => h1 t (hp.symm.subset ht), by rw [← h2]; exact ((hp.map _).sum_eq).symm⟩
  · rintro n a b r ⟨h1, h2⟩
    have ha := h1 a (by simp)
    have hb := h1 b (by simp)
    refine ⟨fun t ht => ?_, by simp [mergeNode, Tree.weight] at h2 ⊢; omega⟩
    rcases List.mem_cons.1 ht with rfl | ht
    · exact ⟨⟨ha.2, hb.2, rfl, ha.1, hb.1⟩, by simp [mergeNode, Tree.index]⟩
    · have := h1 t (by simp [ht]); exact ⟨this.1, by omega⟩
  · refine ⟨fun t ht => ⟨leavesFrom_ok es 0 t ht, ?_⟩, leavesFrom_weight es 0⟩
    have := leavesFrom_index_lt es 0 t ht; omega

theorem syms_length_pos (t : Tree) : 0 < t.syms.length := by
  induction t with
  | leaf i s w => simp [Tree.syms]
  | node i l r w ihl ihr => simp [Tree.syms]; omega

/-- A path is shorter than the number of leaves. -/
theorem walk_length_lt (t : Tree) : ∀ p ∈ walk t [], p.2.length < t.syms.length := by
  induction t with
  | leaf i s w => simp [walk, Tree.syms]
  | node i l r w ihl ihr =>
    intro p hp
    have := syms_length_pos l
    have := syms_length_pos r
    rw [walk_node, List.mem_append, List.mem_map, List.mem_map] at hp
    simp only [Tree.syms, List.length_append]
    rcases hp with ⟨e, he, rfl⟩ | ⟨e, he, rfl⟩
    · have := ihl e he; simp; omega
    · have := ihr e he; simp; omega

theorem treeBuild_syms_length {es : List Entry} {root : Tree} (h : treeBuild es = .ok root) :
    root.syms.length = es.length := by
  simpa using (treeBuild_syms h).length_eq

/-- Two entries or more give an internal root. -/
theorem treeBuild_node {es : List Entry} {root : Tree} (h : treeBuild es = .ok root)
    (h2 : 2 ≤ es.length) : ∃ i l r w, root = .node i l r w := by
  have := treeBuild_syms_length h
  cases root with
  | leaf => simp [Tree.syms] at this; omega
  | node i l r w => exact ⟨i, l, r, w, rfl⟩

/-- What a walk that ends has read: one code of the node, that of the symbol it gives. -/
theorem descend_ok {t : Tree} {u rest : Bits} {s : Byte} (h : descend t u = .ok (s, rest)) :
    ∃ c, (s, c) ∈ walk t [] ∧ u = c ++ rest := by
  induction t generalizing u with
  | leaf i s' w =>
    simp [descend] at h
    exact ⟨[], by simp [walk, h.1], by simp [h.2]⟩
  | node i l r w ihl ihr =>
    cases u with
    | nil => simp [descend] at h
    | cons b u =>
      rw [descend] at h
      rw [walk_node]
      split at h
      next hb =>
        obtain ⟨c, h1, h2⟩ := ihr h
        exact ⟨true :: c, List.mem_append_right _ (List.mem_map.2 ⟨_, h1, rfl⟩), by simp [hb, h2]⟩
      next hb =>
        obtain ⟨c, h1, h2⟩ := ihl h
        exact ⟨false :: c, List.mem_append_left _ (List.mem_map.2 ⟨_, h1, rfl⟩), by
          simp at hb; simp [hb, h2]⟩

/-- What the decoding of one symbol has read: the symbol's code. -/
theorem decodeSymbol_ok {t : Tree} {u rest : Bits} {s : Byte} (h : decodeSymbol t u = .ok (s, rest)) :
    ∃ c, (s, c) ∈ codeGen t ∧ u = c ++ rest := by
  cases t with
  | leaf i s' w =>
    cases u with
    | nil => simp [decodeSymbol] at h
    | cons b u =>
      rw [decodeSymbol] at h
      split at h
      · cases h
      next hb => cases h; exact ⟨[false], by simp [codeGen], by simp at hb; simp [hb]⟩
  | node i l r w => exact descend_ok h

end Sys2Proof.Machine
end

