-- ==== Sys2Proof/Laws/Container.lean ====
section
/-! SUPPORT. The container and the two commands: the byte order, the frequency table of an input, when a
container is made, and what the result of a command can be. -/

namespace Sys2Proof.Machine

open Sys2Proof (Byte Bits)

/-! ### Byte order -/

theorem u32le_length (v : Nat) : (u32le v).length = 4 := rfl

/-- le32 reads back what u32le wrote, for a value of 32 bits. -/
theorem le32_u32le (v : Nat) (h : v < 2 ^ 32) :
    le32 (BitVec.ofNat 8 v) (BitVec.ofNat 8 (v / 256)) (BitVec.ofNat 8 (v / 65536))
      (BitVec.ofNat 8 (v / 16777216)) = v := by
  simp only [le32, BitVec.toNat_ofNat]
  omega

theorem le32_lt (a b c d : Byte) : le32 a b c d < 2 ^ 32 := by
  have := a.isLt; have := b.isLt; have := c.isLt; have := d.isLt
  simp only [le32]; omega

/-- u32le writes back what le32 read. -/
theorem u32le_le32 (a b c d : Byte) : u32le (le32 a b c d) = [a, b, c, d] := by
  have := a.isLt; have := b.isLt; have := c.isLt; have := d.isLt
  simp only [u32le, le32, List.cons.injEq, and_true]
  refine ⟨?_, ?_, ?_, ?_⟩ <;> (apply BitVec.eq_of_toNat_eq; simp only [BitVec.toNat_ofNat]; omega)

/-! ### The frequency table -/

theorem mem_allSymbols (b : Byte) : b ∈ allSymbols := by
  refine List.mem_map.2 ⟨b.toNat, List.mem_range.2 b.isLt, by simp⟩

theorem freqTable_ok {d : List Byte} (h : d ≠ []) :
    freqTable d = .ok (allSymbols.filterMap (entryOf d)) := by
  rw [freqTable, if_neg (by simpa using h)]

theorem mem_freqTable {d : List Byte} {es : List Entry} (h : freqTable d = .ok es) (e : Entry) :
    e ∈ es ↔ e.freq = d.count e.sym ∧ 1 ≤ e.freq := by
  rw [freqTable] at h
  split at h
  · cases h
  · cases h
    rw [List.mem_filterMap]
    constructor
    · rintro ⟨a, _, ha⟩
      rw [entryOf] at ha
      split at ha
      · cases ha; exact ⟨rfl, ‹_›⟩
      · cases ha
    · rintro ⟨h1, h2⟩
      refine ⟨e.sym, mem_allSymbols _, ?_⟩
      rw [entryOf, freqCount, ← h1, if_pos h2]

/-- Every input byte has an entry. -/
theorem sym_mem_freqTable {d : List Byte} {es : List Entry} (h : freqTable d = .ok es) {b : Byte}
    (hb : b ∈ d) : b ∈ es.map Entry.sym :=
  List.mem_map.2 ⟨{ sym := b, freq := d.count b },
    (mem_freqTable h _).2 ⟨rfl, List.count_pos_iff.2 hb⟩, rfl⟩

theorem freqTable_ne_nil {d : List Byte} {es : List Entry} (h : freqTable d = .ok es) : es ≠ [] := by
  rintro rfl
  have hd : d ≠ [] := by rintro rfl; simp [freqTable] at h
  obtain ⟨b, hb⟩ := List.exists_mem_of_ne_nil d hd
  simpa using sym_mem_freqTable h hb

/-! ### The two commands -/

theorem frame_length (n : Nat) (es : List Entry) (p : List Byte) (pad : Nat) :
    (frame n es p pad).length = 6 + 5 * es.length + p.length := by
  have : (es.flatMap pairBytes).length = 5 * es.length := by
    induction es with
    | nil => rfl
    | cons e es ih => simp [pairBytes, u32le_length, ih]; omega
  simp only [frame, List.length_append, u32le_length, this, List.length_cons, List.length_nil]
  omega

/-- An input that is not empty has a container, made as R78 says. -/
theorem containerOf_ok {d : List Byte} (h : d ≠ []) : ∃ es root, freqTable d = .ok es ∧
    treeBuild es = .ok root ∧ containerOf d = .ok (frame d.length es
      (pack (encodeBits (codeGen root) d)).1 (pack (encodeBits (codeGen root) d)).2) := by
  have h1 := freqTable_ok h
  obtain ⟨root, h2⟩ := treeBuild_ok (freqTable_ne_nil h1)
  exact ⟨_, root, h1, h2, by rw [containerOf, h1]; dsimp only; rw [h2]⟩

/-- What Compress() can answer. -/
theorem compressResult_cases (s : State) :
    (s.inCap.toNat < s.inLen.toNat ∧ s.compressResult = .error .badLength) ∨
    (s.inLen.toNat ≤ s.inCap.toNat ∧ s.inLen.toNat = 0 ∧ s.compressResult = .error .emptyInput) ∨
    (s.inLen.toNat ≤ s.inCap.toNat ∧ s.inLen.toNat ≠ 0 ∧ ∃ c, containerOf s.input = .ok c ∧
      s.compressResult = if s.outCap.toNat < c.length then .error .outputOverflow else .ok c) := by
  have hl : s.input.length = s.inLen.toNat := by simp [State.input, State.inputLength]
  by_cases h1 : s.inCap.toNat < s.inLen.toNat
  · exact .inl ⟨h1, by rw [State.compressResult, State.inCapacity, State.inputLength, if_pos h1]⟩
  · by_cases h2 : s.inLen.toNat = 0
    · refine .inr (.inl ⟨by omega, h2, ?_⟩)
      rw [State.compressResult, State.inCapacity, State.inputLength, if_neg h1, compressBytes,
        containerOf, freqTable, if_pos (by omega)]
    · have hne : s.input ≠ [] := by
        intro h; rw [h] at hl; simp at hl; omega
      obtain ⟨es, root, _, _, h3⟩ := containerOf_ok hne
      refine .inr (.inr ⟨by omega, h2, _, h3, ?_⟩)
      rw [State.compressResult, State.inCapacity, State.inputLength, if_neg h1, compressBytes, h3]

/-- A result of COMPRESS fits OUT (R77). -/
theorem compressResult_le {s : State} {r : List Byte} (h : s.compressResult = .ok r) :
    r.length ≤ s.outCap.toNat := by
  rcases compressResult_cases s with ⟨_, h1⟩ | ⟨_, _, h1⟩ | ⟨_, _, c, _, h1⟩
  · rw [h] at h1; cases h1
  · rw [h] at h1; cases h1
  · rw [h] at h1
    split at h1
    · cases h1
    · cases h1; omega

/-- What a successful DECOMPRESS has passed (R79). -/
theorem decompressResult_ok {s : State} {r : List Byte} (h : s.decompressResult = .ok r) :
    s.inLen.toNat ≤ s.inCap.toNat ∧ ∃ p u root, parse s.input = .ok p ∧ p.len ≤ s.outCap.toNat ∧
      unpack p.payload p.pad = .ok u ∧ treeBuild p.entries = .ok root ∧
      decodeBits root p.len u = .ok r ∧ r.length = p.len := by
  rw [State.decompressResult, State.inCapacity, State.inputLength] at h
  split at h
  · cases h
  · refine ⟨by omega, ?_⟩
    rw [decompressBytes] at h
    split at h
    · cases h
    next p hp =>
      split at h
      · cases h
      next hle =>
        rw [originalOf] at h
        split at h
        · cases h
        next u hu =>
          split at h
          · cases h
          next root hr =>
            exact ⟨p, u, root, hp, by simpa [State.outCapacity] using hle, hu, hr, h,
              decodeBits_length h⟩

/-- A result of DECOMPRESS fits OUT (R77). -/
theorem decompressResult_le {s : State} {r : List Byte} (h : s.decompressResult = .ok r) :
    r.length ≤ s.outCap.toNat := by
  obtain ⟨_, p, u, root, _, h1, _, _, _, h2⟩ := decompressResult_ok h
  omega

/-- The errors a command raises never are IMPOSSIBLE_TREE (R61, R83). -/
theorem parse_error {c : List Byte} {e : CmdError} (h : parse c = .error e) : e = .malformedContainer := by
  have hp : ∀ n k es e, parsePairs c n k es = .error e → e = .malformedContainer := by
    intro n
    induction n with
    | zero => intro k es e h; simp [parsePairs] at h
    | succ n ih =>
      intro k es e h
      rw [parsePairs] at h
      split at h
      · cases h; rfl
      · split at h
        · cases h; rfl
        · exact ih _ _ _ h
  rw [parse] at h
  split at h
  · cases h; rfl
  · dsimp only at h
    split at h
    · cases h; rfl
    · split at h
      next he => cases h; exact hp _ _ _ _ he
      · split at h
        · cases h
        · cases h; rfl

theorem parsePairs_ok {c : List Byte} {n k : Nat} {es r : List Entry} (h : parsePairs c n k es = .ok r) :
    r.length = es.length + n := by
  induction n generalizing k es with
  | zero => simp [parsePairs] at h; simp [h]
  | succ n ih =>
    rw [parsePairs] at h
    split at h
    · cases h
    · split at h
      · cases h
      · have := ih h
        simp at this; omega

theorem symbolCount_pos (b : Byte) : 1 ≤ symbolCount b ∧ symbolCount b ≤ 256 := by
  have := b.isLt
  unfold symbolCount
  split <;> omega

/-- What Parse has checked of a container it accepts (R74). -/
theorem parse_ok {c : List Byte} {p : Parsed} (h : parse c = .ok p) :
    6 + 5 * symbolCount (byteAt c 4) ≤ c.length ∧
    parsePairs c (symbolCount (byteAt c 4)) 0 [] = .ok p.entries ∧
    p.entries.length = symbolCount (byteAt c 4) ∧
    totalFreq p.entries = p.len ∧ p.len = le32At c 0 ∧
    p.payload = (c.drop (5 + 5 * symbolCount (byteAt c 4))).take
      (c.length - 6 - 5 * symbolCount (byteAt c 4)) ∧
    p.pad = (byteAt c (c.length - 1)).toNat := by
  rw [parse] at h
  split at h
  · cases h
  · dsimp only at h
    split at h
    · cases h
    · split at h
      · cases h
      next es he =>
        split at h
        next ht =>
          cases h
          exact ⟨by omega, he, by simpa using parsePairs_ok he, ht, rfl, rfl, rfl⟩
        · cases h

theorem parse_ok_entries_ne_nil {c : List Byte} {p : Parsed} (h : parse c = .ok p) : p.entries ≠ [] := by
  have h1 := (parse_ok h).2.2.1
  have h2 := symbolCount_pos (byteAt c 4)
  intro h3; rw [h3] at h1; simp at h1; omega

theorem descend_error {t : Tree} {u : Bits} {e : CmdError} (h : descend t u = .error e) :
    e = .malformedContainer := by
  induction t generalizing u with
  | leaf i s w => simp [descend] at h
  | node i l r w ihl ihr =>
    cases u with
    | nil => simp [descend] at h; exact h.symm
    | cons b u =>
      rw [descend] at h
      split at h
      · exact ihr h
      · exact ihl h

theorem decodeBits_error {t : Tree} {n : Nat} {u : Bits} {e : CmdError}
    (h : decodeBits t n u = .error e) : e = .malformedContainer := by
  have hs : ∀ u e, decodeSymbol t u = .error e → e = .malformedContainer := by
    intro u e h
    cases t with
    | leaf i s w =>
      cases u with
      | nil => simp [decodeSymbol] at h; exact h.symm
      | cons b u =>
        rw [decodeSymbol] at h
        split at h
        · cases h; rfl
        · cases h
    | node i l r w => exact descend_error h
  induction n generalizing u with
  | zero => simp [decodeBits] at h
  | succ n ih =>
    rw [decodeBits] at h
    split at h
    next he => cases h; exact hs _ _ he
    · split at h
      next he => cases h; exact ih he
      · cases h

/-- The errors Decompress() can raise (R79). -/
theorem decompressResult_error {s : State} {e : CmdError} (h : s.decompressResult = .error e) :
    e = .badLength ∨ e = .malformedContainer ∨ e = .outputOverflow ∨ e = .invalidPadding := by
  rw [State.decompressResult] at h
  split at h
  · cases h; exact .inl rfl
  · rw [decompressBytes] at h
    split at h
    next he => cases h; exact .inr (.inl (parse_error he))
    next p hp =>
      split at h
      · cases h; exact .inr (.inr (.inl rfl))
      · rw [originalOf] at h
        split at h
        next he =>
          cases h
          rw [unpack] at he
          split at he
          · cases he; exact .inr (.inr (.inr rfl))
          · split at he
            · cases he; exact .inr (.inr (.inr rfl))
            · cases he
        · split at h
          next he =>
            obtain ⟨root, hr⟩ := treeBuild_ok (parse_ok_entries_ne_nil hp)
            rw [hr] at he; cases he
          · exact .inr (.inl (decodeBits_error h))

/-- The errors Compress() can raise (R78). -/
theorem compressResult_error {s : State} {e : CmdError} (h : s.compressResult = .error e) :
    e = .badLength ∨ e = .emptyInput ∨ e = .outputOverflow := by
  rcases compressResult_cases s with ⟨_, h1⟩ | ⟨_, _, h1⟩ | ⟨_, _, c, _, h1⟩ <;> rw [h] at h1
  · cases h1; exact .inl rfl
  · cases h1; exact .inr (.inl rfl)
  · split at h1
    · cases h1; exact .inr (.inr rfl)
    · cases h1

end Sys2Proof.Machine
end

