-- ==== Sys2Proof/Laws/Entries.lean ====
section
/-! SUPPORT. The frequency table of an input in terms of its distinct symbols: what FreqTable gives, its order
and its sum. -/

namespace Sys2Proof.Machine

open Sys2Proof (Byte)

theorem filterMap_entryOf (d : List Byte) : allSymbols.filterMap (entryOf d) = entriesOf d := by
  unfold entriesOf symbolsOf
  generalize allSymbols = l
  induction l with
  | nil => rfl
  | cons b l ih =>
    by_cases h : b ∈ d
    · have : entryOf d b = some { sym := b, freq := d.count b } := by
        rw [entryOf, freqCount, if_pos (show 1 ≤ d.count b from List.count_pos_iff.2 h)]
      simp [this, h, ih]
    · have : entryOf d b = none := by
        rw [entryOf, freqCount, if_neg (by simp [List.count_eq_zero.2 h])]
      simp [this, h, ih]

/-- What FreqTable gives for an input that is not empty (R50). -/
theorem freqTable_entries {d : List Byte} (h : d ≠ []) : freqTable d = .ok (entriesOf d) := by
  rw [freqTable_ok h, filterMap_entryOf]

theorem entriesOf_length (d : List Byte) : (entriesOf d).length = (symbolsOf d).length := by
  simp [entriesOf]

theorem mem_symbolsOf (d : List Byte) (b : Byte) : b ∈ symbolsOf d ↔ b ∈ d := by
  simp [symbolsOf, mem_allSymbols]

theorem allSymbols_sorted : allSymbols.Pairwise (fun a b => a.toNat < b.toNat) := by
  unfold allSymbols
  rw [List.pairwise_map]
  refine List.Pairwise.imp_of_mem ?_ (List.pairwise_lt_range (n := 256))
  intro a b ha hb h
  have := List.mem_range.1 ha
  have := List.mem_range.1 hb
  simp only [BitVec.toNat_ofNat]
  omega

theorem symbolsOf_sorted (d : List Byte) : (symbolsOf d).Pairwise (fun a b => a.toNat < b.toNat) :=
  allSymbols_sorted.filter _

theorem symbolsOf_nodup (d : List Byte) : (symbolsOf d).Nodup :=
  (symbolsOf_sorted d).imp (fun h => by rintro rfl; omega)

theorem symbolsOf_length_le (d : List Byte) : (symbolsOf d).length ≤ 256 := by
  have : (symbolsOf d).length ≤ allSymbols.length := List.length_filter_le _ _
  simpa [allSymbols] using this

/-- A value at every input byte, summed by distinct symbols and their counts. -/
theorem sum_by_symbol (d : List Byte) (f : Byte → Nat) :
    ((symbolsOf d).map (fun b => d.count b * f b)).sum = (d.map f).sum := by
  have key : ∀ l : List Byte, l.Nodup → (∀ b ∈ d, b ∈ l) →
      (l.map (fun b => d.count b * f b)).sum = (d.map f).sum := by
    intro l hl
    induction d with
    | nil => intro _; simp
    | cons x d ih =>
      intro hm
      have h1 : l.map (fun b => (x :: d).count b * f b) =
          l.map (fun b => d.count b * f b + if b = x then f x else 0) := by
        apply List.map_congr_left
        intro b _
        rw [List.count_cons]
        by_cases h : x = b
        · simp [h, Nat.add_mul]
        · simp [h, Ne.symm h]
      have h2 : ∀ l : List Byte, (l.map (fun b => if b = x then f x else 0)).sum = l.count x * f x := by
        intro l
        induction l with
        | nil => simp
        | cons y l ih =>
          rw [List.map_cons, List.sum_cons, ih, List.count_cons]
          by_cases h : y = x
          · simp [h, Nat.add_mul]; omega
          · simp [h]
      rw [h1, List.sum_map_add, ih (fun b hb => hm b (by simp [hb])), h2,
        List.count_eq_one_of_mem hl (hm x (by simp))]
      simp; omega
  exact key _ (symbolsOf_nodup d) (fun b hb => (mem_symbolsOf d b).2 hb)

/-- The frequencies sum to the length (R52). -/
theorem totalFreq_entriesOf (d : List Byte) : totalFreq (entriesOf d) = d.length := by
  have := sum_by_symbol d (fun _ => 1)
  simpa [totalFreq, entriesOf, Function.comp_def] using this

theorem entriesOf_syms (d : List Byte) : (entriesOf d).map Entry.sym = symbolsOf d := by
  simp [entriesOf, Function.comp_def]

theorem entriesOf_pairsOk (d : List Byte) : PairsOk (entriesOf d) := by
  refine ⟨fun e he => ?_, by rw [entriesOf_syms]; exact symbolsOf_nodup d⟩
  obtain ⟨b, hb, rfl⟩ := List.mem_map.1 he
  exact List.count_pos_iff.2 ((mem_symbolsOf d b).1 hb)

end Sys2Proof.Machine
end

