-- ==== Sys2Proof/Laws/Flags.lean ====
section
/-! SUPPORT. The words CTRL and STATUS read as, as numbers and bit by bit. -/

namespace Sys2Proof.Machine

open Sys2Proof (Word)

theorem State.ctrlWord_eq (s : State) : s.ctrlWord = if s.ie then 1#32 else 0#32 := by
  unfold State.ctrlWord
  cases s.ie <;> rfl

/-- Bit 0 is IE, every other bit 0 (R14). -/
theorem State.ctrlWord_getLsbD (s : State) (k : Nat) :
    s.ctrlWord.getLsbD k = (decide (k = 0) && s.ie) := by
  rw [State.ctrlWord_eq]
  cases s.ie <;> simp [BitVec.getLsbD_one]

theorem State.statusWord_eq (s : State) :
    s.statusWord =
      BitVec.ofNat 32 ((if s.isBusy then 1 else 0) + (if s.done then 2 else 0) + 256 * s.err.toNat) := by
  unfold State.statusWord
  generalize s.err = e
  cases s.isBusy <;> cases s.done <;> (revert e; decide)

/-- STATUS reads 0 in IDLE with DONE = 0 and ERR = 0, and 1 in BUSY with them 0 (R15). -/
theorem State.statusWord_clear {s : State} (hd : s.done = false) (he : s.err = 0#4) :
    s.statusWord = if s.isBusy then 1#32 else 0#32 := by
  rw [State.statusWord_eq, hd, he]
  cases s.isBusy <;> rfl

end Sys2Proof.Machine
end

