-- ==== Sys2Proof/Laws/State.lean ====
section
/-! SUPPORT. What each named update of the state does to each field: one lemma per field per update, true by
rfl, so that no later proof unfolds a record update. -/

namespace Sys2Proof.Machine

open Sys2Proof (Byte Word)

variable (s : State)

/-! ### storeIn -/

@[simp] theorem State.storeIn_inCap (i : Nat) (xs : List Byte) : (s.storeIn i xs).inCap = s.inCap := rfl
@[simp] theorem State.storeIn_outCap (i : Nat) (xs : List Byte) : (s.storeIn i xs).outCap = s.outCap := rfl
@[simp] theorem State.storeIn_ie (i : Nat) (xs : List Byte) : (s.storeIn i xs).ie = s.ie := rfl
@[simp] theorem State.storeIn_done (i : Nat) (xs : List Byte) : (s.storeIn i xs).done = s.done := rfl
@[simp] theorem State.storeIn_err (i : Nat) (xs : List Byte) : (s.storeIn i xs).err = s.err := rfl
@[simp] theorem State.storeIn_inLen (i : Nat) (xs : List Byte) : (s.storeIn i xs).inLen = s.inLen := rfl
@[simp] theorem State.storeIn_outLen (i : Nat) (xs : List Byte) : (s.storeIn i xs).outLen = s.outLen := rfl
@[simp] theorem State.storeIn_phase (i : Nat) (xs : List Byte) : (s.storeIn i xs).phase = s.phase := rfl
@[simp] theorem State.storeIn_inMem (i : Nat) (xs : List Byte) : (s.storeIn i xs).inMem = Memory.storeBytes s.inMem i xs := rfl
@[simp] theorem State.storeIn_outMem (i : Nat) (xs : List Byte) : (s.storeIn i xs).outMem = s.outMem := rfl
@[simp] theorem State.storeIn_inDraw (i : Nat) (xs : List Byte) : (s.storeIn i xs).inDraw = s.inDraw := rfl
@[simp] theorem State.storeIn_outDraw (i : Nat) (xs : List Byte) : (s.storeIn i xs).outDraw = s.outDraw := rfl
@[simp] theorem State.storeIn_draws (i : Nat) (xs : List Byte) : (s.storeIn i xs).draws = s.draws := rfl
@[simp] theorem State.storeIn_wait (i : Nat) (xs : List Byte) : (s.storeIn i xs).wait = s.wait := rfl
@[simp] theorem State.storeIn_host (i : Nat) (xs : List Byte) : (s.storeIn i xs).host = s.host := rfl
@[simp] theorem State.storeIn_answers (i : Nat) (xs : List Byte) : (s.storeIn i xs).answers = s.answers := rfl

/-! ### setIE -/

@[simp] theorem State.setIE_inCap (b : Bool) : (s.setIE b).inCap = s.inCap := rfl
@[simp] theorem State.setIE_outCap (b : Bool) : (s.setIE b).outCap = s.outCap := rfl
@[simp] theorem State.setIE_ie (b : Bool) : (s.setIE b).ie = b := rfl
@[simp] theorem State.setIE_done (b : Bool) : (s.setIE b).done = s.done := rfl
@[simp] theorem State.setIE_err (b : Bool) : (s.setIE b).err = s.err := rfl
@[simp] theorem State.setIE_inLen (b : Bool) : (s.setIE b).inLen = s.inLen := rfl
@[simp] theorem State.setIE_outLen (b : Bool) : (s.setIE b).outLen = s.outLen := rfl
@[simp] theorem State.setIE_phase (b : Bool) : (s.setIE b).phase = s.phase := rfl
@[simp] theorem State.setIE_inMem (b : Bool) : (s.setIE b).inMem = s.inMem := rfl
@[simp] theorem State.setIE_outMem (b : Bool) : (s.setIE b).outMem = s.outMem := rfl
@[simp] theorem State.setIE_inDraw (b : Bool) : (s.setIE b).inDraw = s.inDraw := rfl
@[simp] theorem State.setIE_outDraw (b : Bool) : (s.setIE b).outDraw = s.outDraw := rfl
@[simp] theorem State.setIE_draws (b : Bool) : (s.setIE b).draws = s.draws := rfl
@[simp] theorem State.setIE_wait (b : Bool) : (s.setIE b).wait = s.wait := rfl
@[simp] theorem State.setIE_host (b : Bool) : (s.setIE b).host = s.host := rfl
@[simp] theorem State.setIE_answers (b : Bool) : (s.setIE b).answers = s.answers := rfl

/-! ### setInLen -/

@[simp] theorem State.setInLen_inCap (v : Word) : (s.setInLen v).inCap = s.inCap := rfl
@[simp] theorem State.setInLen_outCap (v : Word) : (s.setInLen v).outCap = s.outCap := rfl
@[simp] theorem State.setInLen_ie (v : Word) : (s.setInLen v).ie = s.ie := rfl
@[simp] theorem State.setInLen_done (v : Word) : (s.setInLen v).done = s.done := rfl
@[simp] theorem State.setInLen_err (v : Word) : (s.setInLen v).err = s.err := rfl
@[simp] theorem State.setInLen_inLen (v : Word) : (s.setInLen v).inLen = v := rfl
@[simp] theorem State.setInLen_outLen (v : Word) : (s.setInLen v).outLen = s.outLen := rfl
@[simp] theorem State.setInLen_phase (v : Word) : (s.setInLen v).phase = s.phase := rfl
@[simp] theorem State.setInLen_inMem (v : Word) : (s.setInLen v).inMem = s.inMem := rfl
@[simp] theorem State.setInLen_outMem (v : Word) : (s.setInLen v).outMem = s.outMem := rfl
@[simp] theorem State.setInLen_inDraw (v : Word) : (s.setInLen v).inDraw = s.inDraw := rfl
@[simp] theorem State.setInLen_outDraw (v : Word) : (s.setInLen v).outDraw = s.outDraw := rfl
@[simp] theorem State.setInLen_draws (v : Word) : (s.setInLen v).draws = s.draws := rfl
@[simp] theorem State.setInLen_wait (v : Word) : (s.setInLen v).wait = s.wait := rfl
@[simp] theorem State.setInLen_host (v : Word) : (s.setInLen v).host = s.host := rfl
@[simp] theorem State.setInLen_answers (v : Word) : (s.setInLen v).answers = s.answers := rfl

/-! ### acknowledge -/

@[simp] theorem State.acknowledge_inCap : (s.acknowledge).inCap = s.inCap := rfl
@[simp] theorem State.acknowledge_outCap : (s.acknowledge).outCap = s.outCap := rfl
@[simp] theorem State.acknowledge_ie : (s.acknowledge).ie = s.ie := rfl
@[simp] theorem State.acknowledge_done : (s.acknowledge).done = false := rfl
@[simp] theorem State.acknowledge_err : (s.acknowledge).err = s.err := rfl
@[simp] theorem State.acknowledge_inLen : (s.acknowledge).inLen = s.inLen := rfl
@[simp] theorem State.acknowledge_outLen : (s.acknowledge).outLen = s.outLen := rfl
@[simp] theorem State.acknowledge_phase : (s.acknowledge).phase = s.phase := rfl
@[simp] theorem State.acknowledge_inMem : (s.acknowledge).inMem = s.inMem := rfl
@[simp] theorem State.acknowledge_outMem : (s.acknowledge).outMem = s.outMem := rfl
@[simp] theorem State.acknowledge_inDraw : (s.acknowledge).inDraw = s.inDraw := rfl
@[simp] theorem State.acknowledge_outDraw : (s.acknowledge).outDraw = s.outDraw := rfl
@[simp] theorem State.acknowledge_draws : (s.acknowledge).draws = s.draws := rfl
@[simp] theorem State.acknowledge_wait : (s.acknowledge).wait = s.wait := rfl
@[simp] theorem State.acknowledge_host : (s.acknowledge).host = s.host := rfl
@[simp] theorem State.acknowledge_answers : (s.acknowledge).answers = s.answers := rfl

/-! ### start -/

@[simp] theorem State.start_inCap (w : Word) : (s.start w).inCap = s.inCap := rfl
@[simp] theorem State.start_outCap (w : Word) : (s.start w).outCap = s.outCap := rfl
@[simp] theorem State.start_ie (w : Word) : (s.start w).ie = s.ie := rfl
@[simp] theorem State.start_done (w : Word) : (s.start w).done = false := rfl
@[simp] theorem State.start_err (w : Word) : (s.start w).err = 0#4 := rfl
@[simp] theorem State.start_inLen (w : Word) : (s.start w).inLen = s.inLen := rfl
@[simp] theorem State.start_outLen (w : Word) : (s.start w).outLen = 0#32 := rfl
@[simp] theorem State.start_phase (w : Word) : (s.start w).phase = .busy w := rfl
@[simp] theorem State.start_inMem (w : Word) : (s.start w).inMem = s.inMem := rfl
@[simp] theorem State.start_outMem (w : Word) : (s.start w).outMem = s.outMem := rfl
@[simp] theorem State.start_inDraw (w : Word) : (s.start w).inDraw = s.inDraw := rfl
@[simp] theorem State.start_outDraw (w : Word) : (s.start w).outDraw = s.outDraw := rfl
@[simp] theorem State.start_draws (w : Word) : (s.start w).draws = s.draws + 1 := rfl
@[simp] theorem State.start_wait (w : Word) : (s.start w).wait = Config.latency s.draws := rfl
@[simp] theorem State.start_host (w : Word) : (s.start w).host = s.host := rfl
@[simp] theorem State.start_answers (w : Word) : (s.start w).answers = s.answers := rfl

/-! ### completeOk -/

@[simp] theorem State.completeOk_inCap (r : List Byte) : (s.completeOk r).inCap = s.inCap := rfl
@[simp] theorem State.completeOk_outCap (r : List Byte) : (s.completeOk r).outCap = s.outCap := rfl
@[simp] theorem State.completeOk_ie (r : List Byte) : (s.completeOk r).ie = s.ie := rfl
@[simp] theorem State.completeOk_done (r : List Byte) : (s.completeOk r).done = true := rfl
@[simp] theorem State.completeOk_err (r : List Byte) : (s.completeOk r).err = 0#4 := rfl
@[simp] theorem State.completeOk_inLen (r : List Byte) : (s.completeOk r).inLen = s.inLen := rfl
@[simp] theorem State.completeOk_outLen (r : List Byte) : (s.completeOk r).outLen = BitVec.ofNat 32 r.length := rfl
@[simp] theorem State.completeOk_phase (r : List Byte) : (s.completeOk r).phase = .idle := rfl
@[simp] theorem State.completeOk_inMem (r : List Byte) : (s.completeOk r).inMem = s.inMem := rfl
@[simp] theorem State.completeOk_outMem (r : List Byte) : (s.completeOk r).outMem = Memory.ofBytes 0 r := rfl
@[simp] theorem State.completeOk_inDraw (r : List Byte) : (s.completeOk r).inDraw = s.inDraw := rfl
@[simp] theorem State.completeOk_outDraw (r : List Byte) : (s.completeOk r).outDraw = s.draws := rfl
@[simp] theorem State.completeOk_draws (r : List Byte) : (s.completeOk r).draws = s.draws + 1 := rfl
@[simp] theorem State.completeOk_wait (r : List Byte) : (s.completeOk r).wait = 0 := rfl
@[simp] theorem State.completeOk_host (r : List Byte) : (s.completeOk r).host = s.host := rfl
@[simp] theorem State.completeOk_answers (r : List Byte) : (s.completeOk r).answers = s.answers := rfl

/-! ### completeError -/

@[simp] theorem State.completeError_inCap (e : CmdError) : (s.completeError e).inCap = s.inCap := rfl
@[simp] theorem State.completeError_outCap (e : CmdError) : (s.completeError e).outCap = s.outCap := rfl
@[simp] theorem State.completeError_ie (e : CmdError) : (s.completeError e).ie = s.ie := rfl
@[simp] theorem State.completeError_done (e : CmdError) : (s.completeError e).done = true := rfl
@[simp] theorem State.completeError_err (e : CmdError) : (s.completeError e).err = e.code := rfl
@[simp] theorem State.completeError_inLen (e : CmdError) : (s.completeError e).inLen = s.inLen := rfl
@[simp] theorem State.completeError_outLen (e : CmdError) : (s.completeError e).outLen = 0#32 := rfl
@[simp] theorem State.completeError_phase (e : CmdError) : (s.completeError e).phase = .idle := rfl
@[simp] theorem State.completeError_inMem (e : CmdError) : (s.completeError e).inMem = s.inMem := rfl
@[simp] theorem State.completeError_outMem (e : CmdError) : (s.completeError e).outMem = [] := rfl
@[simp] theorem State.completeError_inDraw (e : CmdError) : (s.completeError e).inDraw = s.inDraw := rfl
@[simp] theorem State.completeError_outDraw (e : CmdError) : (s.completeError e).outDraw = s.draws := rfl
@[simp] theorem State.completeError_draws (e : CmdError) : (s.completeError e).draws = s.draws + 1 := rfl
@[simp] theorem State.completeError_wait (e : CmdError) : (s.completeError e).wait = 0 := rfl
@[simp] theorem State.completeError_host (e : CmdError) : (s.completeError e).host = s.host := rfl
@[simp] theorem State.completeError_answers (e : CmdError) : (s.completeError e).answers = s.answers := rfl

/-! ### resetEvent -/

@[simp] theorem State.resetEvent_inCap : (s.resetEvent).inCap = s.inCap := rfl
@[simp] theorem State.resetEvent_outCap : (s.resetEvent).outCap = s.outCap := rfl
@[simp] theorem State.resetEvent_ie : (s.resetEvent).ie = false := rfl
@[simp] theorem State.resetEvent_done : (s.resetEvent).done = false := rfl
@[simp] theorem State.resetEvent_err : (s.resetEvent).err = 0#4 := rfl
@[simp] theorem State.resetEvent_inLen : (s.resetEvent).inLen = 0#32 := rfl
@[simp] theorem State.resetEvent_outLen : (s.resetEvent).outLen = 0#32 := rfl
@[simp] theorem State.resetEvent_phase : (s.resetEvent).phase = .idle := rfl
@[simp] theorem State.resetEvent_inMem : (s.resetEvent).inMem = [] := rfl
@[simp] theorem State.resetEvent_outMem : (s.resetEvent).outMem = [] := rfl
@[simp] theorem State.resetEvent_inDraw : (s.resetEvent).inDraw = s.draws := rfl
@[simp] theorem State.resetEvent_outDraw : (s.resetEvent).outDraw = s.draws + 1 := rfl
@[simp] theorem State.resetEvent_draws : (s.resetEvent).draws = s.draws + 2 := rfl
@[simp] theorem State.resetEvent_wait : (s.resetEvent).wait = 0 := rfl
@[simp] theorem State.resetEvent_host : (s.resetEvent).host = s.host := rfl
@[simp] theorem State.resetEvent_answers : (s.resetEvent).answers = s.answers := rfl

/-! ### afterDraw -/

@[simp] theorem State.afterDraw_inCap : (s.afterDraw).inCap = s.inCap := rfl
@[simp] theorem State.afterDraw_outCap : (s.afterDraw).outCap = s.outCap := rfl
@[simp] theorem State.afterDraw_ie : (s.afterDraw).ie = s.ie := rfl
@[simp] theorem State.afterDraw_done : (s.afterDraw).done = s.done := rfl
@[simp] theorem State.afterDraw_err : (s.afterDraw).err = s.err := rfl
@[simp] theorem State.afterDraw_inLen : (s.afterDraw).inLen = s.inLen := rfl
@[simp] theorem State.afterDraw_outLen : (s.afterDraw).outLen = s.outLen := rfl
@[simp] theorem State.afterDraw_phase : (s.afterDraw).phase = s.phase := rfl
@[simp] theorem State.afterDraw_inMem : (s.afterDraw).inMem = s.inMem := rfl
@[simp] theorem State.afterDraw_outMem : (s.afterDraw).outMem = s.outMem := rfl
@[simp] theorem State.afterDraw_inDraw : (s.afterDraw).inDraw = s.inDraw := rfl
@[simp] theorem State.afterDraw_outDraw : (s.afterDraw).outDraw = s.outDraw := rfl
@[simp] theorem State.afterDraw_draws : (s.afterDraw).draws = s.draws + 1 := rfl
@[simp] theorem State.afterDraw_wait : (s.afterDraw).wait = s.wait := rfl
@[simp] theorem State.afterDraw_host : (s.afterDraw).host = s.host := rfl
@[simp] theorem State.afterDraw_answers : (s.afterDraw).answers = s.answers := rfl

/-! ### setHost -/

@[simp] theorem State.setHost_inCap (l : List HostAction) : (s.setHost l).inCap = s.inCap := rfl
@[simp] theorem State.setHost_outCap (l : List HostAction) : (s.setHost l).outCap = s.outCap := rfl
@[simp] theorem State.setHost_ie (l : List HostAction) : (s.setHost l).ie = s.ie := rfl
@[simp] theorem State.setHost_done (l : List HostAction) : (s.setHost l).done = s.done := rfl
@[simp] theorem State.setHost_err (l : List HostAction) : (s.setHost l).err = s.err := rfl
@[simp] theorem State.setHost_inLen (l : List HostAction) : (s.setHost l).inLen = s.inLen := rfl
@[simp] theorem State.setHost_outLen (l : List HostAction) : (s.setHost l).outLen = s.outLen := rfl
@[simp] theorem State.setHost_phase (l : List HostAction) : (s.setHost l).phase = s.phase := rfl
@[simp] theorem State.setHost_inMem (l : List HostAction) : (s.setHost l).inMem = s.inMem := rfl
@[simp] theorem State.setHost_outMem (l : List HostAction) : (s.setHost l).outMem = s.outMem := rfl
@[simp] theorem State.setHost_inDraw (l : List HostAction) : (s.setHost l).inDraw = s.inDraw := rfl
@[simp] theorem State.setHost_outDraw (l : List HostAction) : (s.setHost l).outDraw = s.outDraw := rfl
@[simp] theorem State.setHost_draws (l : List HostAction) : (s.setHost l).draws = s.draws := rfl
@[simp] theorem State.setHost_wait (l : List HostAction) : (s.setHost l).wait = s.wait := rfl
@[simp] theorem State.setHost_host (l : List HostAction) : (s.setHost l).host = l := rfl
@[simp] theorem State.setHost_answers (l : List HostAction) : (s.setHost l).answers = s.answers := rfl

/-! ### answer -/

@[simp] theorem State.answer_inCap (a : Answer) : (s.answer a).inCap = s.inCap := rfl
@[simp] theorem State.answer_outCap (a : Answer) : (s.answer a).outCap = s.outCap := rfl
@[simp] theorem State.answer_ie (a : Answer) : (s.answer a).ie = s.ie := rfl
@[simp] theorem State.answer_done (a : Answer) : (s.answer a).done = s.done := rfl
@[simp] theorem State.answer_err (a : Answer) : (s.answer a).err = s.err := rfl
@[simp] theorem State.answer_inLen (a : Answer) : (s.answer a).inLen = s.inLen := rfl
@[simp] theorem State.answer_outLen (a : Answer) : (s.answer a).outLen = s.outLen := rfl
@[simp] theorem State.answer_phase (a : Answer) : (s.answer a).phase = s.phase := rfl
@[simp] theorem State.answer_inMem (a : Answer) : (s.answer a).inMem = s.inMem := rfl
@[simp] theorem State.answer_outMem (a : Answer) : (s.answer a).outMem = s.outMem := rfl
@[simp] theorem State.answer_inDraw (a : Answer) : (s.answer a).inDraw = s.inDraw := rfl
@[simp] theorem State.answer_outDraw (a : Answer) : (s.answer a).outDraw = s.outDraw := rfl
@[simp] theorem State.answer_draws (a : Answer) : (s.answer a).draws = s.draws := rfl
@[simp] theorem State.answer_wait (a : Answer) : (s.answer a).wait = s.wait := rfl
@[simp] theorem State.answer_host (a : Answer) : (s.answer a).host = s.host := rfl
@[simp] theorem State.answer_answers (a : Answer) : (s.answer a).answers = a :: s.answers := rfl

/-! ### tick -/

@[simp] theorem State.tick_inCap : (s.tick).inCap = s.inCap := rfl
@[simp] theorem State.tick_outCap : (s.tick).outCap = s.outCap := rfl
@[simp] theorem State.tick_ie : (s.tick).ie = s.ie := rfl
@[simp] theorem State.tick_done : (s.tick).done = s.done := rfl
@[simp] theorem State.tick_err : (s.tick).err = s.err := rfl
@[simp] theorem State.tick_inLen : (s.tick).inLen = s.inLen := rfl
@[simp] theorem State.tick_outLen : (s.tick).outLen = s.outLen := rfl
@[simp] theorem State.tick_phase : (s.tick).phase = s.phase := rfl
@[simp] theorem State.tick_inMem : (s.tick).inMem = s.inMem := rfl
@[simp] theorem State.tick_outMem : (s.tick).outMem = s.outMem := rfl
@[simp] theorem State.tick_inDraw : (s.tick).inDraw = s.inDraw := rfl
@[simp] theorem State.tick_outDraw : (s.tick).outDraw = s.outDraw := rfl
@[simp] theorem State.tick_draws : (s.tick).draws = s.draws := rfl
@[simp] theorem State.tick_wait : (s.tick).wait = s.wait - 1 := rfl
@[simp] theorem State.tick_host : (s.tick).host = s.host := rfl
@[simp] theorem State.tick_answers : (s.tick).answers = s.answers := rfl

/-! ### The flags and the buffers through the updates -/

@[simp] theorem State.start_isBusy (w : Word) : (s.start w).isBusy = true := rfl
@[simp] theorem State.completeOk_isBusy (r : List Byte) : (s.completeOk r).isBusy = false := rfl
@[simp] theorem State.completeError_isBusy (e : CmdError) : (s.completeError e).isBusy = false := rfl
@[simp] theorem State.resetEvent_isBusy : s.resetEvent.isBusy = false := rfl
@[simp] theorem State.setIE_isBusy (b : Bool) : (s.setIE b).isBusy = s.isBusy := rfl
@[simp] theorem State.setInLen_isBusy (v : Word) : (s.setInLen v).isBusy = s.isBusy := rfl
@[simp] theorem State.acknowledge_isBusy : s.acknowledge.isBusy = s.isBusy := rfl
@[simp] theorem State.storeIn_isBusy (i : Nat) (xs : List Byte) : (s.storeIn i xs).isBusy = s.isBusy := rfl
@[simp] theorem State.afterDraw_isBusy : s.afterDraw.isBusy = s.isBusy := rfl
@[simp] theorem State.setHost_isBusy (l : List HostAction) : (s.setHost l).isBusy = s.isBusy := rfl
@[simp] theorem State.answer_isBusy (a : Answer) : (s.answer a).isBusy = s.isBusy := rfl
@[simp] theorem State.tick_isBusy : s.tick.isBusy = s.isBusy := rfl

@[simp] theorem State.start_inByte (w : Word) (i : Nat) : (s.start w).inByte i = s.inByte i := rfl
@[simp] theorem State.start_outByte (w : Word) (i : Nat) : (s.start w).outByte i = s.outByte i := rfl
@[simp] theorem State.completeOk_inByte (r : List Byte) (i : Nat) : (s.completeOk r).inByte i = s.inByte i := rfl
@[simp] theorem State.completeError_inByte (e : CmdError) (i : Nat) :
    (s.completeError e).inByte i = s.inByte i := rfl
@[simp] theorem State.completeError_outByte (e : CmdError) (i : Nat) :
    (s.completeError e).outByte i = Config.freeByte s.draws i := rfl
@[simp] theorem State.resetEvent_inByte (i : Nat) : s.resetEvent.inByte i = Config.freeByte s.draws i := rfl
@[simp] theorem State.resetEvent_outByte (i : Nat) :
    s.resetEvent.outByte i = Config.freeByte (s.draws + 1) i := rfl
@[simp] theorem State.storeIn_outByte (i : Nat) (xs : List Byte) (j : Nat) :
    (s.storeIn i xs).outByte j = s.outByte j := rfl
@[simp] theorem State.setIE_inByte (b : Bool) (i : Nat) : (s.setIE b).inByte i = s.inByte i := rfl
@[simp] theorem State.setIE_outByte (b : Bool) (i : Nat) : (s.setIE b).outByte i = s.outByte i := rfl
@[simp] theorem State.setInLen_inByte (v : Word) (i : Nat) : (s.setInLen v).inByte i = s.inByte i := rfl
@[simp] theorem State.setInLen_outByte (v : Word) (i : Nat) : (s.setInLen v).outByte i = s.outByte i := rfl
@[simp] theorem State.acknowledge_inByte (i : Nat) : s.acknowledge.inByte i = s.inByte i := rfl
@[simp] theorem State.acknowledge_outByte (i : Nat) : s.acknowledge.outByte i = s.outByte i := rfl
@[simp] theorem State.afterDraw_inByte (i : Nat) : s.afterDraw.inByte i = s.inByte i := rfl
@[simp] theorem State.afterDraw_outByte (i : Nat) : s.afterDraw.outByte i = s.outByte i := rfl
@[simp] theorem State.setHost_inByte (l : List HostAction) (i : Nat) : (s.setHost l).inByte i = s.inByte i := rfl
@[simp] theorem State.setHost_outByte (l : List HostAction) (i : Nat) : (s.setHost l).outByte i = s.outByte i := rfl
@[simp] theorem State.answer_inByte (a : Answer) (i : Nat) : (s.answer a).inByte i = s.inByte i := rfl
@[simp] theorem State.answer_outByte (a : Answer) (i : Nat) : (s.answer a).outByte i = s.outByte i := rfl
@[simp] theorem State.tick_inByte (i : Nat) : s.tick.inByte i = s.inByte i := rfl
@[simp] theorem State.tick_outByte (i : Nat) : s.tick.outByte i = s.outByte i := rfl

end Sys2Proof.Machine
end

