-- ==== Sys2Proof/Laws/Memory.lean ====
section
/-! SUPPORT. The buffers' operations: what a store leaves to be read, and that every operation keeps the
canonical form and the bounds. -/

namespace Sys2Proof.Machine

open Sys2Proof (Byte Word)

/-- A store is read back at its index and leaves every other index as it was. -/
theorem Memory.lookup_store (m : Memory) (i : Nat) (x : Byte) (j : Nat) :
    Memory.lookup (Memory.store m i x) j = if j = i then some x else Memory.lookup m j := by
  induction m with
  | nil => simp [Memory.store, Memory.lookup]
  | cons c m ih =>
    obtain ⟨a, y⟩ := c
    simp only [Memory.store]
    split
    · simp [Memory.lookup]
    · split
      next h =>
        by_cases hj : j = i <;> simp [Memory.lookup, hj, ← h]
      · by_cases hj : j = a
        · subst hj
          have : ¬ j = i := fun h => by omega
          simp [Memory.lookup, this]
        · simp [Memory.lookup, hj, ih]

/-- What a run of stores leaves to be read. -/
theorem Memory.lookup_storeBytes (xs : List Byte) (m : Memory) (i j : Nat) :
    Memory.lookup (Memory.storeBytes m i xs) j =
      if i ≤ j ∧ j < i + xs.length then xs[j - i]? else Memory.lookup m j := by
  induction xs generalizing m i with
  | nil => simp [Memory.storeBytes]
  | cons x xs ih =>
    rw [Memory.storeBytes, ih, Memory.lookup_store]
    by_cases h : j = i
    · subst h; simp
    · by_cases h2 : i + 1 ≤ j ∧ j < i + 1 + xs.length
      · have h3 : i ≤ j ∧ j < i + (x :: xs).length := by simp; omega
        rw [if_pos h2, if_pos h3, show j - i = (j - (i + 1)) + 1 by omega]
        simp
      · have h3 : ¬ (i ≤ j ∧ j < i + (x :: xs).length) := by simp; omega
        rw [if_neg h2, if_neg h3, if_neg h]

/-- What the memory of a byte list holds. -/
theorem Memory.lookup_ofBytes (xs : List Byte) (i j : Nat) :
    Memory.lookup (Memory.ofBytes i xs) j = if i ≤ j then xs[j - i]? else none := by
  induction xs generalizing i with
  | nil => simp [Memory.ofBytes, Memory.lookup]
  | cons x xs ih =>
    rw [Memory.ofBytes, Memory.lookup, ih]
    by_cases h : j = i
    · subst h; simp
    · rw [if_neg h]
      by_cases h2 : i + 1 ≤ j
      · rw [if_pos h2, if_pos (by omega), show j - i = (j - (i + 1)) + 1 by omega]; simp
      · rw [if_neg h2, if_neg (by omega)]

/-- Canonical form and the bound of the indexes, as one list fact. -/
theorem Memory.wf_iff (m : Memory) :
    Memory.wf m = true ↔ m.Pairwise (fun c d => c.1 < d.1) := by
  induction m with
  | nil => simp [Memory.wf]
  | cons c m ih =>
    cases m with
    | nil => simp [Memory.wf]
    | cons d m =>
      obtain ⟨a, x⟩ := c
      obtain ⟨b, y⟩ := d
      rw [Memory.wf, Bool.and_eq_true, decide_eq_true_iff, ih]
      constructor
      · rintro ⟨h1, h2⟩
        refine List.pairwise_cons.2 ⟨?_, h2⟩
        intro e he
        rcases List.mem_cons.1 he with rfl | he
        · exact h1
        · exact Nat.lt_trans h1 ((List.pairwise_cons.1 h2).1 e he)
      · intro h
        exact ⟨(List.pairwise_cons.1 h).1 (b, y) (by simp), (List.pairwise_cons.1 h).2⟩

theorem Memory.mem_store (m : Memory) (i : Nat) (x : Byte) (c : Host.Cell)
    (h : c ∈ Memory.store m i x) : c = (i, x) ∨ c ∈ m := by
  induction m with
  | nil => simpa [Memory.store] using h
  | cons d m ih =>
    obtain ⟨a, y⟩ := d
    simp only [Memory.store] at h
    split at h
    · simpa using h
    · split at h
      · rcases List.mem_cons.1 h with h | h
        · exact .inl h
        · exact .inr (List.mem_cons_of_mem _ h)
      · rcases List.mem_cons.1 h with h | h
        · exact .inr (h ▸ List.mem_cons_self ..)
        · rcases ih h with h | h
          · exact .inl h
          · exact .inr (List.mem_cons_of_mem _ h)

theorem Memory.store_wf (m : Memory) (i : Nat) (x : Byte) (h : Memory.wf m = true) :
    Memory.wf (Memory.store m i x) = true := by
  rw [Memory.wf_iff] at h ⊢
  induction m with
  | nil => simp [Memory.store]
  | cons d m ih =>
    obtain ⟨a, y⟩ := d
    obtain ⟨h1, h2⟩ := List.pairwise_cons.1 h
    simp only [Memory.store]
    split
    next hlt =>
      refine List.pairwise_cons.2 ⟨?_, h⟩
      intro e he
      rcases List.mem_cons.1 he with rfl | he
      · exact hlt
      · exact Nat.lt_trans hlt (h1 e he)
    next hlt =>
      split
      next heq =>
        subst heq
        exact List.pairwise_cons.2 ⟨h1, h2⟩
      next hne =>
        refine List.pairwise_cons.2 ⟨?_, ih h2⟩
        intro e he
        rcases Memory.mem_store m i x e he with rfl | he
        · show a < i; omega
        · exact h1 e he

theorem Memory.storeBytes_wf (xs : List Byte) (m : Memory) (i : Nat) (h : Memory.wf m = true) :
    Memory.wf (Memory.storeBytes m i xs) = true := by
  induction xs generalizing m i with
  | nil => exact h
  | cons x xs ih => exact ih _ _ (Memory.store_wf m i x h)

theorem Memory.mem_storeBytes (xs : List Byte) (m : Memory) (i : Nat) (c : Host.Cell)
    (h : c ∈ Memory.storeBytes m i xs) : c.1 < i + xs.length ∨ c ∈ m := by
  induction xs generalizing m i with
  | nil => exact .inr h
  | cons x xs ih =>
    rcases ih _ _ h with h | h
    · left; simp; omega
    · rcases Memory.mem_store m i x c h with rfl | h
      · left; simp
      · exact .inr h

theorem Memory.mem_ofBytes (xs : List Byte) (i : Nat) (c : Host.Cell) (h : c ∈ Memory.ofBytes i xs) :
    i ≤ c.1 ∧ c.1 < i + xs.length := by
  induction xs generalizing i with
  | nil => simp [Memory.ofBytes] at h
  | cons x xs ih =>
    rcases List.mem_cons.1 h with rfl | h
    · simp
    · have := ih _ h
      simp only [List.length_cons]
      omega

theorem Memory.ofBytes_wf (xs : List Byte) (i : Nat) : Memory.wf (Memory.ofBytes i xs) = true := by
  rw [Memory.wf_iff]
  induction xs generalizing i with
  | nil => simp [Memory.ofBytes]
  | cons x xs ih =>
    refine List.pairwise_cons.2 ⟨?_, ih _⟩
    intro e he
    have := (Memory.mem_ofBytes xs (i + 1) e he).1
    show i < e.1
    omega

/-- The bytes of OUT after a successful completion: the result, and free values beyond it. -/
theorem State.completeOk_outByte (s : State) (r : List Byte) (i : Nat) :
    (s.completeOk r).outByte i = r[i]?.getD (Config.freeByte s.draws i) := by
  simp only [State.outByte, State.completeOk_outMem, State.completeOk_outDraw, Memory.byte,
    Memory.lookup_ofBytes]
  simp only [Nat.zero_le, if_true, Nat.sub_zero]
  cases r[i]? <;> rfl

/-- The bytes of IN after a write of the host. -/
theorem State.storeIn_inByte (s : State) (i : Nat) (xs : List Byte) (j : Nat) :
    (s.storeIn i xs).inByte j = if i ≤ j ∧ j < i + xs.length then xs.getD (j - i) 0#8 else s.inByte j := by
  simp only [State.inByte, State.storeIn_inMem, State.storeIn_inDraw, Memory.byte,
    Memory.lookup_storeBytes]
  by_cases h : i ≤ j ∧ j < i + xs.length
  · have : j - i < xs.length := by omega
    simp [h, List.getElem?_eq_getElem this]
  · simp only [if_neg h]

end Sys2Proof.Machine
end

