-- ==== Sys2Proof/Laws/Parse.lean ====
section
/-! SUPPORT. Parse in terms of what stands in a container, the bytes of a frame, and the result of a completed
command. -/

namespace Sys2Proof.Machine

open Sys2Proof (Byte Bits)

/-! ### Reading bytes -/

theorem byteAt_append (a b : List Byte) (i : Nat) : byteAt (a ++ b) (a.length + i) = byteAt b i := by
  simp only [byteAt, List.getD_eq_getElem?_getD]
  rw [List.getElem?_append_right (by omega), Nat.add_sub_cancel_left]

theorem drop_byteAt {c : List Byte} {i : Nat} (h : i < c.length) :
    c.drop i = byteAt c i :: c.drop (i + 1) := by
  rw [List.drop_eq_getElem_cons h]
  simp [byteAt, h]

theorem drop_le32At {c : List Byte} {i : Nat} (h : i + 4 ≤ c.length) :
    c.drop i = u32le (le32At c i) ++ c.drop (i + 4) := by
  rw [le32At, u32le_le32, drop_byteAt (i := i) (by omega), drop_byteAt (i := i + 1) (by omega),
    drop_byteAt (i := i + 2) (by omega), drop_byteAt (i := i + 3) (by omega)]
  rfl

/-! ### Parsing -/

/-- Pair `k` of a container (R71). -/
def entryAt (c : List Byte) (k : Nat) : Entry :=
  { sym := byteAt c (5 + 5 * k), freq := le32At c (6 + 5 * k) }

theorem storedPairs_eq (c : List Byte) :
    storedPairs c = (List.range' 0 (symbolCount (byteAt c 4))).map (entryAt c) := by
  rw [storedPairs, List.range_eq_range']; rfl

theorem hasSymbol_iff (es : List Entry) (s : Byte) : hasSymbol es s = true ↔ s ∈ es.map Entry.sym := by
  simp [hasSymbol]

/-- What the reading of the pairs answers: all of them if they are legal, else an error. -/
theorem parsePairs_eq (c : List Byte) (n k : Nat) (es : List Entry) (h : PairsOk es) :
    parsePairs c n k es =
      if PairsOk (es ++ (List.range' k n).map (entryAt c)) then
        .ok (es ++ (List.range' k n).map (entryAt c))
      else .error .malformedContainer := by
  induction n generalizing k es with
  | zero =>
    rw [parsePairs]
    simp only [List.range'_zero, List.map_nil, List.append_nil]
    rw [if_pos h]
  | succ n ih =>
    rw [parsePairs, show es ++ (List.range' k (n + 1)).map (entryAt c) =
      (es ++ [entryAt c k]) ++ (List.range' (k + 1) n).map (entryAt c) by simp [List.range'_succ]]
    split
    next hf =>
      rw [if_neg]
      intro hp
      have := hp.1 (entryAt c k) (by simp)
      simp [entryAt, hf] at this
    · split
      next hf hs =>
        rw [if_neg]
        intro hp
        rw [hasSymbol_iff] at hs
        have := hp.2
        simp only [List.map_append, List.map_cons, List.map_nil, List.append_assoc] at this
        rw [List.nodup_append] at this
        exact this.2.2 _ hs (entryAt c k).sym (by simp) rfl
      next hf hs =>
        rw [hasSymbol_iff] at hs
        refine ih _ _ ⟨fun e he => ?_, ?_⟩
        · rcases List.mem_append.1 he with he | he
          · exact h.1 e he
          · simp at he; subst he; show 1 ≤ le32At c _; omega
        · rw [List.map_append, List.nodup_append]
          refine ⟨h.2, by simp, ?_⟩
          intro a ha b hb hab
          simp at hb
          subst hb; subst hab; exact hs ha

/-- Parse as a chain of checks of what stands in the container (R74). -/
theorem parse_eq (c : List Byte) : parse c =
    if c.length < 5 then .error .malformedContainer
    else if c.length < 6 + 5 * symbolCount (byteAt c 4) then .error .malformedContainer
    else if ¬ PairsOk (storedPairs c) then .error .malformedContainer
    else if totalFreq (storedPairs c) = le32At c 0 then
      .ok { len := le32At c 0, entries := storedPairs c, payload := storedPayload c, pad := storedPad c }
    else .error .malformedContainer := by
  rw [parse]
  dsimp only
  rw [parsePairs_eq c _ 0 [] ⟨by simp, by simp⟩, List.nil_append, ← storedPairs_eq]
  by_cases h : PairsOk (storedPairs c)
  · rw [if_pos h, if_neg (not_not.2 h)]; rfl
  · rw [if_neg h, if_pos h]

/-! ### The bytes of a frame -/

theorem frame_eq (n : Nat) (es : List Entry) (p : List Byte) (pad : Nat) : frame n es p pad =
    (u32le n ++ [BitVec.ofNat 8 (es.length % 256)]) ++
      (es.flatMap pairBytes ++ (p ++ [BitVec.ofNat 8 pad])) := by
  simp [frame]

theorem pairBytes_length (e : Entry) : (pairBytes e).length = 5 := rfl

theorem byteAt_pairs (es : List Entry) (rest : List Byte) (k j : Nat) (hk : k < es.length) (hj : j < 5) :
    byteAt (es.flatMap pairBytes ++ rest) (5 * k + j) = byteAt (pairBytes es[k]) j := by
  induction es generalizing k with
  | nil => simp at hk
  | cons e es ih =>
    rw [List.flatMap_cons, List.append_assoc]
    cases k with
    | zero =>
      simp only [byteAt, List.getD_eq_getElem?_getD, List.getElem_cons_zero]
      rw [List.getElem?_append_left (by rw [pairBytes_length]; omega)]
      simp
    | succ k =>
      rw [show 5 * (k + 1) + j = (pairBytes e).length + (5 * k + j) by rw [pairBytes_length]; omega,
        byteAt_append, ih _ (by simpa using hk)]
      simp

/-- A pair of a frame is read back. -/
theorem entryAt_frame {n : Nat} {es : List Entry} {p : List Byte} {pad k : Nat} (hk : k < es.length)
    (hf : es[k].freq < 2 ^ 32) : entryAt (frame n es p pad) k = es[k] := by
  have hb : ∀ j, j < 5 → byteAt (frame n es p pad) (5 + 5 * k + j) = byteAt (pairBytes es[k]) j := by
    intro j hj
    rw [frame_eq, show 5 + 5 * k + j =
      (u32le n ++ [BitVec.ofNat 8 (es.length % 256)]).length + (5 * k + j) by
        simp [u32le_length]; omega, byteAt_append, byteAt_pairs _ _ _ _ hk hj]
  have e1 : byteAt (frame n es p pad) (5 + 5 * k) = es[k].sym := hb 0 (by omega)
  have e2 : le32At (frame n es p pad) (6 + 5 * k) = es[k].freq := by
    rw [le32At, show 6 + 5 * k = 5 + 5 * k + 1 by omega, Nat.add_assoc (5 + 5 * k),
      Nat.add_assoc (5 + 5 * k), Nat.add_assoc (5 + 5 * k), hb 1 (by omega), hb (1 + 1) (by omega),
      hb (1 + 2) (by omega), hb (1 + 3) (by omega)]
    exact le32_u32le _ hf
  rw [entryAt, e1, e2]

/-! ### The container and the result of a command -/

theorem State.input_length (s : State) : s.input.length = s.inLen.toNat := by
  simp [State.input, State.inputLength]

/-- The container of an input that is not empty, under the tree of its entries (R78). -/
theorem containerOf_eq {d : List Byte} {root : Tree} (hne : d ≠ [])
    (hr : treeBuild (entriesOf d) = .ok root) :
    containerOf d = .ok (frame d.length (entriesOf d) (pack (encodeBits (codeGen root) d)).1
      (pack (encodeBits (codeGen root) d)).2) := by
  rw [containerOf, freqTable_entries hne]
  dsimp only
  rw [hr]

/-- Its length (R82). -/
theorem container_length (d : List Byte) (root : Tree) :
    (frame d.length (entriesOf d) (pack (encodeBits (codeGen root) d)).1
      (pack (encodeBits (codeGen root) d)).2).length =
    containerSize (symbolsOf d).length (encodeBits (codeGen root) d).length := by
  rw [frame_length, pack_length, entriesOf_length, containerSize]

/-- What a completion with a result that fits OUT shows: its length, its bytes, and it as a whole. -/
theorem State.completeOk_shows (s : State) {r : List Byte} (h : r.length ≤ s.outCap.toNat) :
    (s.completeOk r).outLen.toNat = r.length ∧
    (∀ k (hk : k < r.length), (s.completeOk r).outByte k = r[k]) ∧ (s.completeOk r).result = r := by
  have hl : (s.completeOk r).outLen.toNat = r.length := by
    have := s.outCap.isLt
    simp only [State.completeOk_outLen, BitVec.toNat_ofNat]; omega
  have hb : ∀ k (hk : k < r.length), (s.completeOk r).outByte k = r[k] := by
    intro k hk
    rw [State.completeOk_outByte]; simp [hk]
  refine ⟨hl, hb, ?_⟩
  unfold State.result
  rw [hl]
  apply List.ext_getElem (by simp)
  intro i h1 h2
  simpa using hb i h2

end Sys2Proof.Machine
end

