-- ==== Sys2Proof/Laws/PerInstr.lean ====
section
/-! SUPPORT. One law per command: its syntax and its encoding's fields. -/

namespace Sys2Proof.Laws.Encoding

open Sys2Proof (Instr)

/-- A command is well-formed, the fields of its word are the ones the encoder lays out, and they are
well-formed (R41, R42). -/
def Statement (i : Instr) : Prop :=
  i.wellFormed = true ∧ commandFields (encode i) = fieldsOf i ∧ (fieldsOf i).wellFormed = true

theorem compress : Statement .compress := by unfold Statement; decide

theorem decompress : Statement .decompress := by unfold Statement; decide

end Sys2Proof.Laws.Encoding
end

