-- ==== Sys2Proof/Laws/Port.lean ====
section
/-! SUPPORT. The slave port: everything one transaction can do to the state, said once, and what it does at
each register. -/

namespace Sys2Proof.Machine

open Sys2Proof (Byte Word)

/-- Everything a transaction can do to the state: nothing; in BUSY use up a draw (a window read); write
CTRL; and in IDLE start a command, write IN_LEN, acknowledge, or write bytes inside IN. -/
inductive Effect (s : State) : Transaction → State → Prop where
  | nothing (t : Transaction) : Effect s t s
  | draw (addr : Word) (z : Size) (busy : s.isBusy = true) : Effect s (.read addr z) s.afterDraw
  | ctrl (v : Word) : Effect s (.write 0x0C#32 (.word v)) (s.writeCtrl v)
  | start (v : Word) (idle : s.isBusy = false) : Effect s (.write 0x14#32 (.word v)) (s.start v)
  | inLen (v : Word) (idle : s.isBusy = false) : Effect s (.write 0x18#32 (.word v)) (s.setInLen v)
  | ack (v : Word) (idle : s.isBusy = false) (bit : v.getLsbD 1 = true) :
      Effect s (.write 0x10#32 (.word v)) s.acknowledge
  | store (addr : Word) (i : Nat) (d : Datum) (idle : s.isBusy = false)
      (inside : i + sizeBytes (datumSize d) ≤ s.inCap.toNat) :
      Effect s (.write addr d) (s.storeIn i (datumBytes d))

theorem readError_effect (s : State) (addr : Word) (z : Size) :
    Effect s (.read addr z) (s.readError z).2 := .nothing _

theorem readWindow_effect (s : State) (addr : Word) (z : Size) (f : Nat → Byte) (i : Nat) :
    Effect s (.read addr z) (s.readWindow z f i).2 := by
  rw [State.readWindow]
  split
  · exact .draw _ _ ‹_›
  · exact .nothing _

theorem placeOf_reg {s : State} {addr : Word} {off : Nat} (h : s.placeOf addr = .reg off) :
    addr.toNat = off ∧ off < 0x1000 := by
  unfold State.placeOf at h
  dsimp only at h
  split at h
  · simp at h; omega
  · split at h
    · simp at h
    · split at h <;> simp at h

theorem regAt_eq_of {off : Nat} : (regAt off = .ctrl → off = 0x0C) ∧ (regAt off = .status → off = 0x10) ∧
    (regAt off = .cmd → off = 0x14) ∧ (regAt off = .inLen → off = 0x18) := by
  unfold regAt
  refine ⟨?_, ?_, ?_, ?_⟩ <;> (intro h; repeat' split at h) <;> simp_all

/-- One transaction has one of the effects, and no other. -/
theorem transact_effect (s : State) (t : Transaction) : Effect s t (s.transact t).2 := by
  cases t with
  | read addr z =>
    simp only [State.transact, State.portRead]
    split
    · split
      · exact .nothing _
      · exact readError_effect ..
    · split
      · exact readWindow_effect ..
      · exact readError_effect ..
    · split
      · exact readWindow_effect ..
      · exact readError_effect ..
    · exact readError_effect ..
  | write addr d =>
    simp only [State.transact, State.portWrite]
    split
    next off hp =>
      split
      next hok =>
        obtain ⟨ha, _⟩ := placeOf_reg hp
        obtain ⟨h1, h2, h3, h4⟩ := @regAt_eq_of off
        have hw : ∃ v, d = .word v := by
          cases d with
          | word v => exact ⟨v, rfl⟩
          | byte v => simp [regAccessOk, datumSize] at hok
          | half v => simp [regAccessOk, datumSize] at hok
        obtain ⟨v, rfl⟩ := hw
        have addr_eq : ∀ k, off = k → addr = BitVec.ofNat 32 k := by
          rintro k rfl; rw [← ha]; simp
        rcases hr : regAt off <;> simp only [State.writeReg, datumWord]
        all_goals first | exact .nothing _ | skip
        · rw [addr_eq _ (h1 hr)]; exact .ctrl v
        · rw [addr_eq _ (h2 hr), State.writeStatus]
          split
          · exact .nothing _
          · split
            · exact .ack v (by simpa using ‹¬ s.isBusy = true›) ‹_›
            · exact .nothing _
        · rw [addr_eq _ (h3 hr), State.writeCmd]
          split
          · exact .nothing _
          · exact .start v (by simpa using ‹¬ s.isBusy = true›)
        · rw [addr_eq _ (h4 hr), State.writeInLen]
          split
          · exact .nothing _
          · exact .inLen v (by simpa using ‹¬ s.isBusy = true›)
      next => exact .nothing _
    next i hp =>
      split
      next hok =>
        simp only [State.writeIn]
        split
        · exact .nothing _
        · refine .store _ _ _ (by simpa using ‹¬ s.isBusy = true›) ?_
          simp only [windowAccessOk, Bool.and_eq_true, State.inCapacity] at hok
          exact of_decide_eq_true hok.2
      next => exact .nothing _
    next => exact .nothing _
    next => exact .nothing _

theorem datumBytes_length (d : Datum) : (datumBytes d).length = sizeBytes (datumSize d) := by
  cases d <;> rfl

/-- No transaction touches the parameters or the host's side. -/
theorem transact_frame (s : State) (t : Transaction) :
    (s.transact t).2.inCap = s.inCap ∧ (s.transact t).2.outCap = s.outCap ∧
    (s.transact t).2.host = s.host ∧ (s.transact t).2.answers = s.answers ∧
    (∀ i, (s.transact t).2.outByte i = s.outByte i) := by
  have h := transact_effect s t
  generalize (s.transact t).2 = u at h
  cases h <;> simp [State.writeCtrl]

/-! ### The address map -/

theorem placeOf_ofNat (s : State) {off : Nat} (h : off < 0x1000) :
    s.placeOf (BitVec.ofNat 32 off) = .reg off := by
  have : (BitVec.ofNat 32 off).toNat = off := by rw [BitVec.toNat_ofNat]; omega
  simp only [State.placeOf, this, if_pos h]

theorem placeOf_in (s : State) {i : Nat} (h : i < s.inCap.toNat) (hc : s.inCap.toNat ≤ 2 ^ 30) :
    s.placeOf (inAddr i) = .inWindow i := by
  have ha : (inAddr i).toNat = 0x40000000 + i := by
    simp only [inAddr, inBase, BitVec.toNat_ofNat]; omega
  simp only [State.placeOf, ha, inBase, State.inCapacity]
  rw [if_neg (by omega), if_pos (by omega), Nat.add_sub_cancel_left]

theorem placeOf_out (s : State) {i : Nat} (h : i < s.outCap.toNat) (hi : s.inCap.toNat ≤ 2 ^ 30)
    (ho : s.outCap.toNat ≤ 2 ^ 30) : s.placeOf (outAddr i) = .outWindow i := by
  have ha : (outAddr i).toNat = 0x80000000 + i := by
    simp only [outAddr, outBase, BitVec.toNat_ofNat]; omega
  simp only [State.placeOf, ha, inBase, outBase, State.inCapacity, State.outCapacity]
  rw [if_neg (by omega), if_neg (by omega), if_pos (by omega), Nat.add_sub_cancel_left]

theorem sizeBytes_pos (z : Size) : 1 ≤ sizeBytes z := by cases z <;> decide

/-! ### When an access answers OKAY -/

theorem readWindow_resp (s : State) (z : Size) (f : Nat → Byte) (i : Nat) :
    (s.readWindow z f i).1.resp = .okay := by
  rw [State.readWindow]
  split <;> rfl

/-- A read answers OKAY exactly when its place admits it. -/
theorem portRead_okay (s : State) (addr : Word) (z : Size) :
    (s.portRead addr z).1.resp = .okay ↔
      (∃ off, s.placeOf addr = .reg off ∧ regAccessOk off z = true) ∨
      (∃ i, s.placeOf addr = .inWindow i ∧ windowAccessOk s.inCapacity i z = true) ∨
      (∃ i, s.placeOf addr = .outWindow i ∧ windowAccessOk s.outCapacity i z = true) := by
  rw [State.portRead]
  cases s.placeOf addr with
  | reg off => cases h : regAccessOk off z <;> simp [h, Answer.resp, State.readError]
  | inWindow i =>
    cases h : windowAccessOk s.inCapacity i z <;> simp [h, readWindow_resp]
    simp [Answer.resp, State.readError]
  | outWindow i =>
    cases h : windowAccessOk s.outCapacity i z <;> simp [h, readWindow_resp]
    simp [Answer.resp, State.readError]
  | unmapped => simp [Answer.resp, State.readError]

/-- A write answers OKAY exactly when its place admits it. -/
theorem portWrite_okay (s : State) (addr : Word) (d : Datum) :
    (s.portWrite addr d).1.resp = .okay ↔
      (∃ off, s.placeOf addr = .reg off ∧ regAccessOk off (datumSize d) = true) ∨
      (∃ i, s.placeOf addr = .inWindow i ∧ windowAccessOk s.inCapacity i (datumSize d) = true) := by
  rw [State.portWrite]
  cases s.placeOf addr with
  | reg off => cases h : regAccessOk off (datumSize d) <;> simp [h, Answer.resp]
  | inWindow i => cases h : windowAccessOk s.inCapacity i (datumSize d) <;> simp [h, Answer.resp]
  | outWindow i => simp [Answer.resp]
  | unmapped => simp [Answer.resp]

/-! ### Data and bytes -/

theorem toNat_append_byte {n : Nat} (x : BitVec n) (y : Byte) :
    (x ++ y).toNat = 256 * x.toNat + y.toNat := by
  rw [BitVec.toNat_append, ← Nat.shiftLeft_add_eq_or_of_lt y.isLt, Nat.shiftLeft_eq]
  omega

/-- The word of four bytes is their little-endian reading (R8, R31). -/
theorem toNat_word_of_bytes (a b c d : Byte) : (d ++ c ++ b ++ a : BitVec 32).toNat = le32 a b c d := by
  rw [toNat_append_byte, toNat_append_byte, toNat_append_byte, le32]
  omega

/-- Byte k of a datum is data bits [8k+7:8k] (R31). -/
theorem datumBytes_getD (d : Datum) (k : Nat) (hk : k < sizeBytes (datumSize d)) :
    (datumBytes d).getD k 0#8 = (datumWord d).extractLsb' (8 * k) 8 := by
  cases d with
  | byte v =>
    obtain rfl : k = 0 := by simp only [datumSize, sizeBytes] at hk; omega
    apply BitVec.eq_of_toNat_eq
    have := v.isLt
    simp [datumBytes, datumWord, BitVec.extractLsb'_toNat]
    omega
  | half v =>
    have hv := v.isLt
    have : k = 0 ∨ k = 1 := by simp only [datumSize, sizeBytes] at hk; omega
    rcases this with rfl | rfl <;>
      (apply BitVec.eq_of_toNat_eq
       simp [datumBytes, datumWord, BitVec.extractLsb'_toNat, Nat.shiftRight_eq_div_pow])
    omega
  | word v =>
    have : k = 0 ∨ k = 1 ∨ k = 2 ∨ k = 3 := by simp only [datumSize, sizeBytes] at hk; omega
    rcases this with rfl | rfl | rfl | rfl <;> rfl

/-- A datum is the datum of its bytes (R31). -/
theorem datumOfBytes_datumBytes (d : Datum) (f : Nat → Byte)
    (h : ∀ k, k < sizeBytes (datumSize d) → f k = (datumBytes d).getD k 0#8) :
    datumOfBytes (datumSize d) f = d := by
  cases d with
  | byte v =>
    rw [datumSize, datumOfBytes, h 0 (show 0 < 1 by decide)]; rfl
  | half v =>
    rw [datumSize, datumOfBytes, h 0 (show 0 < 2 by decide), h 1 (show 1 < 2 by decide)]
    congr 1
    apply BitVec.eq_of_toNat_eq
    have := v.isLt
    rw [toNat_append_byte]
    simp [datumBytes, BitVec.extractLsb'_toNat, Nat.shiftRight_eq_div_pow]
    omega
  | word v =>
    rw [datumSize, datumOfBytes, h 0 (show 0 < 4 by decide), h 1 (show 1 < 4 by decide),
      h 2 (show 2 < 4 by decide), h 3 (show 3 < 4 by decide)]
    congr 1
    apply BitVec.eq_of_toNat_eq
    have := v.isLt
    rw [toNat_append_byte, toNat_append_byte, toNat_append_byte]
    simp [datumBytes, BitVec.extractLsb'_toNat, Nat.shiftRight_eq_div_pow]
    omega

/-- What the host has still to do and the delay left change no transaction's answer, nor its effect on the
rest of the state. -/
theorem transact_turn (s : State) (n : Nat) (l : List HostAction) (tr : Transaction) :
   (({ s with wait := n, host := l } : State).transact tr).1 = (s.transact tr).1 ∧
   ∃ m, (({ s with wait := n, host := l } : State).transact tr).2 = { (s.transact tr).2 with wait := m, host := l } := by
  cases tr with
  | read addr z =>
    simp only [State.transact, State.portRead]
    have : ({ s with wait := n, host := l } : State).placeOf addr = s.placeOf addr := rfl
    rw [this]
    cases s.placeOf addr with
    | reg off =>
      dsimp only
      split
      · refine ⟨?_, n, rfl⟩
        cases regAt off <;> rfl
      · exact ⟨rfl, n, rfl⟩
    | inWindow i =>
      dsimp only
      split
      · unfold State.readWindow
        have : ({ s with wait := n, host := l } : State).isBusy = s.isBusy := rfl
        rw [this]
        split
        · exact ⟨rfl, n, rfl⟩
        · exact ⟨rfl, n, rfl⟩
      · exact ⟨rfl, n, rfl⟩
    | outWindow i =>
      dsimp only
      split
      · unfold State.readWindow
        have : ({ s with wait := n, host := l } : State).isBusy = s.isBusy := rfl
        rw [this]
        split
        · exact ⟨rfl, n, rfl⟩
        · exact ⟨rfl, n, rfl⟩
      · exact ⟨rfl, n, rfl⟩
    | unmapped => exact ⟨rfl, n, rfl⟩
  | write addr d =>
    simp only [State.transact, State.portWrite]
    have : ({ s with wait := n, host := l } : State).placeOf addr = s.placeOf addr := rfl
    rw [this]
    have hb : ({ s with wait := n, host := l } : State).isBusy = s.isBusy := rfl
    cases s.placeOf addr with
    | reg off =>
      dsimp only
      split
      · refine ⟨rfl, ?_⟩
        cases regAt off <;> simp only [State.writeReg] <;> first | exact ⟨n, rfl⟩ | skip
        · unfold State.writeStatus; rw [hb]; split
          · exact ⟨n, rfl⟩
          · split <;> exact ⟨n, rfl⟩
        · unfold State.writeCmd; rw [hb]; split
          · exact ⟨n, rfl⟩
          · exact ⟨_, rfl⟩
        · unfold State.writeInLen; rw [hb]; split
          · exact ⟨n, rfl⟩
          · exact ⟨n, rfl⟩
      · exact ⟨rfl, n, rfl⟩
    | inWindow i =>
      dsimp only
      split
      · refine ⟨rfl, ?_⟩
        unfold State.writeIn; rw [hb]; split
        · exact ⟨n, rfl⟩
        · exact ⟨n, rfl⟩
      · exact ⟨rfl, n, rfl⟩
    | outWindow i => exact ⟨rfl, n, rfl⟩
    | unmapped => exact ⟨rfl, n, rfl⟩

end Sys2Proof.Machine
end

