-- ==== Sys2Proof/Laws/Step.lean ====
section
/-! SUPPORT. Everything one step can do, said once, and that each named update keeps the invariant. -/

namespace Sys2Proof.Machine

open Sys2Proof (Byte Word Instr decode)

/-! ### The step -/

/-- The completion is due exactly in BUSY with no host turn left. -/
theorem dueCommand_eq_some {s : State} {w : Word} :
    s.dueCommand = some w ↔ s.phase = .busy w ∧ s.wait = 0 := by
  unfold State.dueCommand
  cases s.phase with
  | idle => simp
  | busy v => by_cases h : s.wait = 0 <;> simp [h]

/-- What a command of either word completes with: the result of Execute (R43). -/
def State.executed (s : State) : Instr → Except CmdError (List Byte)
  | .compress => s.compressResult
  | .decompress => s.decompressResult

/-- Every command of exec is a completion with the result of Execute (R77). -/
theorem exec_eq (i : Instr) (s : State) : exec i s = .next (s.complete (s.executed i)) := by
  cases i <;> rfl

/-- Everything a step can do: complete a due command, legal or not, or take a host turn. -/
theorem step_cases {s t : State} (h : step s = .next t) :
    (∃ w i, s.dueCommand = some w ∧ decode w = .ok i ∧ t = s.complete (s.executed i)) ∨
    (∃ w e, s.dueCommand = some w ∧ decode w = .error e ∧ t = s.completeError .illegalCommand) ∨
    (s.dueCommand = none ∧ t = s.tick.act) := by
  rw [step] at h
  cases hd : s.dueCommand with
  | none => rw [hd] at h; cases h; exact .inr (.inr ⟨rfl, rfl⟩)
  | some w =>
    rw [hd] at h
    dsimp only at h
    cases hw : decode w with
    | ok i =>
      rw [hw] at h; dsimp only at h
      rw [exec_eq] at h; cases h
      exact .inl ⟨w, i, rfl, hw, rfl⟩
    | error e =>
      rw [hw] at h; cases h
      exact .inr (.inl ⟨w, e, rfl, hw, rfl⟩)

/-- A completion is one of the two forms of R77. -/
theorem complete_cases (s : State) (i : Instr) :
    (∃ r, s.executed i = .ok r ∧ r.length ≤ s.outCap.toNat ∧
      s.complete (s.executed i) = s.completeOk r) ∨
    (∃ e, s.executed i = .error e ∧ e ≠ .impossibleTree ∧
      s.complete (s.executed i) = s.completeError e) := by
  cases h : s.executed i with
  | ok r =>
    refine .inl ⟨r, rfl, ?_, rfl⟩
    cases i
    · exact compressResult_le h
    · exact decompressResult_le h
  | error e =>
    refine .inr ⟨e, rfl, ?_, rfl⟩
    cases i
    · rcases compressResult_error h with rfl | rfl | rfl <;> decide
    · rcases decompressResult_error h with rfl | rfl | rfl | rfl <;> decide

/-- Everything a host turn does to the state, up to what the host has still to do and the answers: it is a
transaction's effect, the reset event, or nothing. -/
theorem act_cases (s : State) :
    (s.host = [] ∧ s.act = s) ∨
    (∃ rest, s.host = .reset :: rest ∧ s.act = (s.setHost rest).resetEvent) ∨
    (∃ t rest, s.host = .access t :: rest ∧
      s.act = ((s.setHost rest).transact t).2.answer ((s.setHost rest).transact t).1) ∨
    (∃ a m v rest l, s.host = .poll a m v :: rest ∧ (l = rest ∨ l = s.host) ∧
      s.act = ((s.transact (.read a .word)).2.answer (s.transact (.read a .word)).1).setHost l) := by
  unfold State.act
  rcases hh : s.host with _ | ⟨a, rest⟩
  · exact .inl ⟨rfl, rfl⟩
  · cases a with
    | reset => exact .inr (.inl ⟨rest, rfl, rfl⟩)
    | access t => exact .inr (.inr (.inl ⟨t, rest, rfl, rfl⟩))
    | poll a m v =>
      refine .inr (.inr (.inr ⟨a, m, v, rest, ?_⟩))
      dsimp only
      split
      · exact ⟨rest, rfl, .inl rfl, rfl⟩
      · refine ⟨_, rfl, .inr rfl, ?_⟩
        have := (transact_frame s (.read a .word)).2.2.1
        rw [hh] at this
        rw [← this]
        rfl

/-- The same with a transaction's effect in place of the transaction. -/
theorem act_effect (s : State) :
    (s.host = [] ∧ s.act = s) ∨
    (∃ rest, s.host = .reset :: rest ∧ s.act = (s.setHost rest).resetEvent) ∨
    (∃ t rest u a, s.host = .access t :: rest ∧ Effect (s.setHost rest) t u ∧ s.act = u.answer a) ∨
    (∃ a m v rest u b l, s.host = .poll a m v :: rest ∧ Effect s (.read a .word) u ∧
      s.act = (u.answer b).setHost l) := by
  rcases act_cases s with h | h | ⟨t, rest, h, h1⟩ | ⟨a, m, v, rest, l, h, _, h1⟩
  · exact .inl h
  · exact .inr (.inl h)
  · exact .inr (.inr (.inl ⟨t, rest, _, _, h, transact_effect _ _, h1⟩))
  · exact .inr (.inr (.inr ⟨a, m, v, rest, _, _, _, h, transact_effect _ _, h1⟩))

/-- A legal access passes the port's check, and starts inside the window. -/
theorem windowAccessOk_of_legal {cap : Word} {i : Nat} {z : Size} (h : LegalAt cap i z) :
    windowAccessOk cap.toNat i z = true ∧ i < cap.toNat := by
  have := sizeBytes_pos z
  obtain ⟨h1, h2⟩ := h
  exact ⟨by simp [windowAccessOk, h1, h2], by omega⟩

/-! ### The invariant through the updates -/

theorem errCodes_of_ne {e : CmdError} (h : e ≠ .impossibleTree) : e.code ∈ errCodes := by
  cases e <;> first | decide | exact absurd rfl h

theorem State.Inv.capsLt {s : State} (h : s.Inv) : s.outCap.toNat < 2 ^ 32 := by
  have := h.caps.2.2; omega

theorem inv_setHost {s : State} (h : s.Inv) (l : List HostAction) : (s.setHost l).Inv := { h with }

theorem inv_answer {s : State} (h : s.Inv) (a : Answer) : (s.answer a).Inv := { h with }

theorem inv_tick {s : State} (h : s.Inv) : s.tick.Inv :=
  { h with idle_wait := fun hb => by rw [State.tick_wait, h.idle_wait hb] }

theorem inv_resetEvent {s : State} (h : s.Inv) : s.resetEvent.Inv where
  caps := h.caps
  inMem_wf := rfl
  inMem_inside := by simp
  outMem_wf := rfl
  outMem_inside := by simp
  err_code := by simp [errCodes]
  outLen_le := by simp
  err_outLen := by simp
  busy_clear := by simp
  idle_wait := by simp
  draws_past := by simp

theorem inv_completeOk {s : State} (h : s.Inv) {r : List Byte} (hr : r.length ≤ s.outCap.toNat) :
    (s.completeOk r).Inv where
  caps := h.caps
  inMem_wf := h.inMem_wf
  inMem_inside := h.inMem_inside
  outMem_wf := Memory.ofBytes_wf r 0
  outMem_inside := fun c hc => by
    have := (Memory.mem_ofBytes r 0 c hc).2
    simp only [State.completeOk_outCap]; omega
  err_code := by simp [errCodes]
  outLen_le := by
    have := h.capsLt
    simp only [State.completeOk_outLen, State.completeOk_outCap, BitVec.toNat_ofNat]; omega
  err_outLen := by simp
  busy_clear := by simp
  idle_wait := by simp
  draws_past := by
    have := h.draws_past
    simp only [State.completeOk_inDraw, State.completeOk_outDraw, State.completeOk_draws]; omega

theorem inv_completeError {s : State} (h : s.Inv) {e : CmdError} (he : e ≠ .impossibleTree) :
    (s.completeError e).Inv where
  caps := h.caps
  inMem_wf := h.inMem_wf
  inMem_inside := h.inMem_inside
  outMem_wf := rfl
  outMem_inside := by simp
  err_code := errCodes_of_ne he
  outLen_le := by simp
  err_outLen := by simp
  busy_clear := by simp
  idle_wait := by simp
  draws_past := by
    have := h.draws_past
    simp only [State.completeError_inDraw, State.completeError_outDraw, State.completeError_draws]
    omega

/-- A transaction's effect keeps the invariant. -/
theorem inv_effect {s u : State} (h : s.Inv) {t : Transaction} (he : Effect s t u) : u.Inv := by
  have hd := h.draws_past
  cases he with
  | nothing => exact h
  | draw addr z busy =>
    refine { h with draws_past := ?_ }
    simp only [State.afterDraw_inDraw, State.afterDraw_outDraw, State.afterDraw_draws]
    omega
  | ctrl v => exact { h with }
  | start v idle =>
    refine
      { h with
        err_code := ?_, outLen_le := ?_, err_outLen := ?_, busy_clear := ?_, idle_wait := ?_
        draws_past := ?_ }
    · simp [errCodes]
    · simp
    · simp
    · simp
    · simp
    · simp only [State.start_inDraw, State.start_outDraw, State.start_draws]
      omega
  | inLen v idle => exact { h with }
  | ack v idle bit =>
    refine { h with busy_clear := fun hb => ?_ }
    simp [idle] at hb
  | store addr i d idle inside =>
    refine { h with inMem_wf := ?_, inMem_inside := fun c hc => ?_ }
    · exact Memory.storeBytes_wf _ _ _ h.inMem_wf
    · rcases Memory.mem_storeBytes _ _ _ _ hc with hc | hc
      · rw [datumBytes_length] at hc
        simp only [State.storeIn_inCap]
        omega
      · exact h.inMem_inside c hc

end Sys2Proof.Machine
end

