-- ==== Sys2Proof/Tests/Slice0.lean ====
section
/-! SUPPORT. Tests of the model against the vectors of spec/95_test_vectors.md (every expected value is the
spec's own), and a witness for the hypotheses of each statement. -/

namespace Sys2Proof.Tests

open Sys2Proof Sys2Proof.Machine

/-! ### Small states -/

/-- Bytes from their values. -/
def bs (l : List Nat) : List Byte := l.map (BitVec.ofNat 8)

/-- The start state of V2: just after reset, with IN_CAP = 64 and OUT_CAP = 64. -/
def tiny : State := { State.reset with inCap := 64#32, outCap := 64#32 }

/-- `tiny` with an input and its length. -/
def loaded (l : List Byte) : State :=
  { tiny with inLen := BitVec.ofNat 32 l.length, inMem := Memory.ofBytes 0 l }

/-- A state whose command `w` is due. -/
def due (w : Word) (s : State) : State := { s with phase := .busy w, wait := 0 }

/-- What a command's completion shows: ERR, OUT_LEN and the result. -/
def shown (o : Host.Outcome State Fault Refusal) : Option (BitVec 4 × Nat × List Byte) :=
  match o with
  | .next t => some (t.err, t.outLen.toNat, t.result)
  | _ => none

/-- ERR after DECOMPRESS of a container in a state of these capacities. -/
def decompressErr (inCap outCap : Nat) (c : List Nat) : Option (BitVec 4) :=
  (shown (exec .decompress
    { loaded (bs c) with inCap := BitVec.ofNat 32 inCap, outCap := BitVec.ofNat 32 outCap })).map Prod.fst

/-- "aaabbbcc" (S1). -/
def s1 : List Nat := [0x61, 0x61, 0x61, 0x62, 0x62, 0x62, 0x63, 0x63]

/-- The first 20 bytes of S1's container: all before the payload. -/
def s1Head : List Nat :=
  [0x08, 0, 0, 0, 0x03, 0x61, 0x03, 0, 0, 0, 0x62, 0x03, 0, 0, 0, 0x63, 0x02, 0, 0, 0]

/-- S1's container, A in V8. -/
def s1Container : List Nat := s1Head ++ [0xFC, 0x50, 0x03]

/-! ### Well-formed fields and decoding -/

/-- R41: RSV is not zero, so the fields of 0x0000_0101 are refused. -/
theorem test_rsv_not_zero_refused :
    (commandFields 0x00000101#32).wellFormed = false ∧ (commandFields 0x00000101#32).rsvZero = false ∧
      (commandFields 0x00000101#32).opcLegal = true := by decide

/-- R41, R45: OPC 0x00 and 0x03 are refused. -/
theorem test_opcode_refused :
    (commandFields 0x00000000#32).wellFormed = false ∧ (commandFields 0x00000003#32).opcLegal = false ∧
      (commandFields 0x00000003#32).rsvZero = true := by decide

/-- R41, R42: the fields of the two commands are well-formed. -/
theorem test_fields_accepted :
    (commandFields 0x00000001#32).wellFormed = true ∧
      (commandFields 0x00000002#32).wellFormed = true := by decide

/-- R42: RSV 24 zero bits, OPC 00000001. -/
theorem test_decode_compress :
    decode 0b00000000000000000000000000000001#32 = .ok .compress ∧
      decodeTableWord 32 1 = some .compress := by decide

/-- R42: RSV 24 zero bits, OPC 00000010. -/
theorem test_decode_decompress :
    decode 0b00000000000000000000000000000010#32 = .ok .decompress ∧
      decodeTableWord 32 2 = some .decompress := by decide

/-- V1: words that are no command. -/
theorem test_decode_illegal :
    [0x00000000, 0x00000003, 0x000000FF, 0x00000101, 0x80000001, 0xFFFFFFFF].map (decodeTableWord 32) =
      [none, none, none, none, none, none] := by decide

/-- R42: the encoder writes the two words. -/
theorem test_encode : encode .compress = 0x00000001#32 ∧ encode .decompress = 0x00000002#32 := by decide

/-! ### The first command after reset -/

/-- With a command word placed, the first step from reset runs its command. -/
theorem test_first_step_compress :
    step (State.reset.withFetchWord 32 1) = exec .compress (State.reset.withFetchWord 32 1) := by rfl

theorem test_first_step_decompress :
    step (State.reset.withFetchWord 32 2) = exec .decompress (State.reset.withFetchWord 32 2) := by rfl

/-! ### The commands -/

/-- V7, row 1, with OUT_CAP = 23 (V7, row 19). -/
theorem test_compress_s1 :
    shown (exec .compress { loaded (bs s1) with outCap := 23#32 }) =
      some (0#4, 23, bs s1Container) := by decide +kernel

/-- V7, the row "abccdddeeeee": five symbols and every depth from 1 to 4. -/
theorem test_compress_depth_four :
    shown (exec .compress
      (loaded (bs [0x61, 0x62, 0x63, 0x63, 0x64, 0x64, 0x64, 0x65, 0x65, 0x65, 0x65, 0x65]))) =
      some (0#4, 35, bs [0x0C, 0, 0, 0, 0x05, 0x61, 1, 0, 0, 0, 0x62, 1, 0, 0, 0, 0x63, 2, 0, 0, 0,
        0x64, 3, 0, 0, 0, 0x65, 5, 0, 0, 0, 0xEF, 0xDA, 0xA0, 0x00, 0x07]) := by decide +kernel

/-- V8, the row "A with 0x50 changed to 0x57": the padding bits are unchecked. -/
theorem test_decompress_padding_bits_unchecked :
    shown (exec .decompress (loaded (bs (s1Head ++ [0xFC, 0x57, 0x03])))) =
      some (0#4, 8, bs s1) := by decide +kernel

/-- V8, the last row (R97): the container of a foreign child order. -/
theorem test_decompress_foreign_order :
    shown (exec .decompress (loaded (bs (s1Head ++ [0x03, 0xA8, 0x03])))) =
      some (0#4, 8, bs [0x62, 0x62, 0x62, 0x62, 0x62, 0x62, 0x61, 0x63]) := by decide +kernel

/-- V9: an illegal word with IN_LEN = 0xFFFF_FFFF. -/
theorem test_illegal_before_bad_length :
    shown (step (due 0x00000101#32 { tiny with inLen := 0xFFFFFFFF#32 })) = some (5#4, 0, []) := by
  decide +kernel

/-! ### The data path -/

/-- V3: the row "zxyz". -/
theorem test_frequency_table :
    (freqTable (bs [0x7A, 0x78, 0x79, 0x7A])).toOption =
      some [⟨0x78#8, 1⟩, ⟨0x79#8, 1⟩, ⟨0x7A#8, 2⟩] := by decide +kernel

/-- V4: the rows a1 b1 c2 and a1 b1 c1 d1, the ties. -/
theorem test_tree_leaf_beats_node :
    (treeBuild [⟨0x61#8, 1⟩, ⟨0x62#8, 1⟩, ⟨0x63#8, 2⟩]).toOption =
      some (.node 4 (.leaf 2 0x63#8 2) (.node 3 (.leaf 0 0x61#8 1) (.leaf 1 0x62#8 1) 2) 4) := by decide

theorem test_tree_internal_tie :
    (treeBuild [⟨0x61#8, 1⟩, ⟨0x62#8, 1⟩, ⟨0x63#8, 1⟩, ⟨0x64#8, 1⟩]).toOption =
      some (.node 6 (.node 4 (.leaf 0 0x61#8 1) (.leaf 1 0x62#8 1) 2)
        (.node 5 (.leaf 2 0x63#8 1) (.leaf 3 0x64#8 1) 2) 4) := by decide

/-- V5: a1 b1 c2 gives a 10, b 11, c 0 (table order is the walk's). -/
theorem test_code_table :
    (treeBuild [⟨0x61#8, 1⟩, ⟨0x62#8, 1⟩, ⟨0x63#8, 2⟩]).toOption.map codeGen =
      some [(0x63#8, [false]), (0x61#8, [true, false]), (0x62#8, [true, true])] := by decide

/-- V6: Pack of 1111110001010 and of nine ones. -/
theorem test_pack :
    pack [true, true, true, true, true, true, false, false, false, true, false, true, false] =
        (bs [0xFC, 0x50], 3) ∧
      pack (List.replicate 9 true) = (bs [0xFF, 0x80], 7) ∧ pack [] = ([], 0) := by decide +kernel

/-- V6: the three rows that raise INVALID_PADDING, and p = 7 with one byte. -/
theorem test_unpack :
    (unpack [] 7).toOption = none ∧ (unpack (bs [0]) 8).toOption = none ∧
      (unpack (bs [0, 0]) 255).toOption = none ∧ (unpack (bs [0xFF]) 7).toOption = some [true] := by
  decide +kernel

/-- V8: one row for every branch of the error priority, each at a boundary: IN_LEN above IN_CAP by one; 4
bytes; 20 bytes where 21 are the least; a frequency 0; a symbol twice; the sum off by one; L = 8 above
OUT_CAP = 7; pad 8 with a byte of payload, pad 3 with none; no bits; a 1 under a leaf root; no error. -/
theorem test_decompress_errors :
    [decompressErr 22 64 s1Container, decompressErr 64 64 [8, 0, 0, 0],
      decompressErr 64 64 (s1Head.take 19 ++ [0]), decompressErr 64 64 [1, 0, 0, 0, 1, 0x41, 0, 0, 0, 0, 0, 0],
      decompressErr 64 64 [2, 0, 0, 0, 2, 0x41, 1, 0, 0, 0, 0x41, 1, 0, 0, 0, 0x80, 6],
      decompressErr 64 64 [2, 0, 0, 0, 1, 0x41, 1, 0, 0, 0, 0, 7], decompressErr 64 7 s1Container,
      decompressErr 64 64 [1, 0, 0, 0, 1, 0x41, 1, 0, 0, 0, 0, 8], decompressErr 64 64 (s1Head ++ [3]),
      decompressErr 64 64 (s1Head ++ [0]), decompressErr 64 64 [1, 0, 0, 0, 1, 0x41, 1, 0, 0, 0, 0x80, 7],
      decompressErr 23 8 s1Container].map (Option.map BitVec.toNat) =
    [some 6, some 3, some 3, some 3, some 3, some 3, some 7, some 4, some 4, some 3, some 3, some 0] := by
  decide +kernel

/-! ### The port (V2) -/

/-- V2: reads just after reset, legal and not. -/
theorem test_port_reads :
    (tiny.portRead (regAddr .id) .word).1 = .read (.word 0x48554631#32) .okay ∧
      (tiny.portRead (regAddr .inCap) .word).1 = .read (.word 0x40#32) .okay ∧
      (tiny.portRead 0x00000020#32 .word).1 = .read (.word 0#32) .okay ∧
      (tiny.portRead (regAddr .status) .byte).1 = .read (.byte 0#8) .error ∧
      (tiny.portRead 0x00000012#32 .word).1 = .read (.word 0#32) .error ∧
      (tiny.portRead 0x00001000#32 .word).1 = .read (.word 0#32) .error ∧
      (tiny.portRead (inAddr 1) .half).1 = .read (.half 0#16) .error ∧
      (tiny.portRead (inAddr 64) .word).1 = .read (.word 0#32) .error ∧
      (tiny.portRead (inAddr 60) .word).1.resp = .okay ∧
      (tiny.portWrite (outAddr 0) (.byte 0x11#8)) = (.write .error, tiny) := by decide +kernel

/-- V2: a word write to IN and the reads of its bytes. -/
theorem test_port_little_endian :
    let s := (tiny.portWrite (inAddr 0) (.word 0x62616161#32)).2
    (s.portRead (inAddr 0) .byte).1 = .read (.byte 0x61#8) .okay ∧
      (s.portRead (inAddr 3) .byte).1 = .read (.byte 0x62#8) .okay ∧
      (s.portRead (inAddr 2) .half).1 = .read (.half 0x6261#16) .okay := by decide +kernel

/-- V10: STATUS after an EMPTY_INPUT completion, then after the acknowledge. -/
theorem test_status_after_error :
    let s := { tiny with ie := true }.completeError .emptyInput
    s.statusWord = 0x00000102#32 ∧ s.irq = true ∧
      (s.portWrite (regAddr .status) (.word 2#32)).2.statusWord = 0x00000100#32 ∧
      (s.portWrite (regAddr .status) (.word 2#32)).2.irq = false := by decide

/-- P1, statements 1 and 5, as the host's side does them. -/
theorem test_host_program :
    ({ tiny with host := [rd32 (regAddr .id), startOp 1#32] }.act).answers =
        [.read (.word 0x48554631#32) .okay] ∧
      ({ tiny with host := [startOp 1#32] }.act).phase = .busy 1#32 := by decide +kernel

/-! ### Witnesses: the whole machine -/

theorem tiny_inv : tiny.Inv where
  caps := by unfold State.CapsOk; decide
  inMem_wf := by decide
  inMem_inside := by decide
  outMem_wf := by decide
  outMem_inside := by decide
  err_code := by decide
  outLen_le := by decide
  err_outLen := by decide
  busy_clear := by decide
  idle_wait := by decide
  draws_past := by decide

theorem due_inv : (due 1#32 (loaded (bs s1))).Inv where
  caps := by unfold State.CapsOk; decide
  inMem_wf := by decide
  inMem_inside := by decide
  outMem_wf := by decide
  outMem_inside := by decide
  err_code := by decide
  outLen_le := by decide
  err_outLen := by decide
  busy_clear := by decide
  idle_wait := by decide
  draws_past := by decide

/-- A reset while a command runs that is not yet due. -/
theorem witness_ResetEventSetsResetState :
    ∃ (s : State) (rest : List HostAction),
      s.dueCommand = none ∧ s.host = .reset :: rest ∧ s.isBusy = true :=
  ⟨{ due 1#32 tiny with wait := 1, host := [.reset] }, [], rfl, rfl, rfl⟩

theorem witness_StepKeepsInvariant :
    ∃ s t : State, s.Inv ∧ s.isBusy = true ∧ step s = .next t := ⟨_, _, due_inv, rfl, rfl⟩

theorem witness_ConstantRegistersNeverChange :
    ∃ s t : State, s.dueCommand = some 2#32 ∧ step s = .next t := ⟨due 2#32 tiny, _, rfl, rfl⟩

/-! ### Witnesses: commands -/

theorem witness_StepRunsDueCommand :
    ∃ (s : State) (w : Word) (i : Instr), s.phase = .busy w ∧ s.wait = 0 ∧ decode w = .ok i :=
  ⟨due 2#32 tiny, 2#32, .decompress, rfl, rfl, rfl⟩

theorem witness_IllegalWordCompletesWithError :
    ∃ (s : State) (w : Word), s.phase = .busy w ∧ s.wait = 0 ∧ w ≠ 0x00000001#32 ∧ w ≠ 0x00000002#32 :=
  ⟨due 3#32 tiny, 3#32, rfl, rfl, by decide, by decide⟩

theorem witness_CmdWriteStartsCommand :
    tiny.isBusy = false ∧ (due 1#32 tiny).isBusy = true := ⟨rfl, rfl⟩

theorem witness_EveryCommandCompletes :
    ∃ (s : State) (w : Word), s.phase = .busy w ∧ HostAction.reset ∉ s.host ∧ s.wait = 2 ∧ s.host ≠ [] :=
  ⟨{ due 1#32 tiny with wait := 2, host := [startOp 2#32, waitDone] }, 1#32, rfl, by decide, rfl, by decide⟩

/-- Two states that differ in CTRL, OUT and the host, with the same operands. -/
theorem witness_OutcomeDependsOnOperandsAlone :
    ∃ (w : Word) (s u : State), s.dueCommand = some w ∧ u.dueCommand = some w ∧ s.SameOperands u ∧ s ≠ u :=
  ⟨1#32, due 1#32 (loaded (bs s1)),
    { due 1#32 (loaded (bs s1)) with ie := true, outMem := [(0, 7#8)], host := [.reset] },
    rfl, rfl, ⟨rfl, rfl, rfl, fun _ _ => rfl⟩, fun h => Bool.noConfusion (congrArg State.ie h)⟩

/-! ### Witnesses: the register file and the port -/

theorem witness_RegisterReadsByOffset :
    (0x00 < 0x1000 ∧ 0x00 % 4 = 0) ∧ (0x1C < 0x1000 ∧ 0x1C % 4 = 0) ∧
      (0x20 < 0x1000 ∧ 0x20 % 4 = 0) ∧ (0xFFC < 0x1000 ∧ 0xFFC % 4 = 0) := by decide

theorem witness_ReservedSpaceReadsZero :
    (0x20 ≤ 0x20 ∧ 0x20 < 0x1000 ∧ 0x20 % 4 = 0) ∧ (0x20 ≤ 0xFFC ∧ 0xFFC < 0x1000 ∧ 0xFFC % 4 = 0) ∧
      tiny.isBusy = false ∧ Reg.outLen ≠ Reg.inLen := by decide

theorem witness_CtrlWriteSetsInterruptEnable :
    (∃ t, exec .compress tiny = .next t) ∧ (∃ t, exec .decompress tiny = .next t) ∧
      (∃ s t : State, s.dueCommand = some 3#32 ∧ step s = .next t) ∧
      ∃ tr : Transaction, (∀ z, tr ≠ .read 0x0C#32 z) ∧ ∀ d, tr ≠ .write 0x0C#32 d :=
  ⟨⟨_, rfl⟩, ⟨_, rfl⟩, ⟨due 3#32 tiny, _, rfl, rfl⟩, .write 0x10#32 (.word 2#32),
    (fun _ h => by cases h), fun _ h => by injection h with h1; revert h1; decide⟩

theorem witness_StatusWriteClearsDone :
    ∃ (s : State) (v : Word), s.isBusy = false ∧ v.getLsbD 1 = true ∧ s.irq = true :=
  ⟨{ tiny with ie := true, done := true }, 2#32, rfl, by decide, rfl⟩

theorem witness_InLenWriteReadsBack : tiny.isBusy = false ∧ (due 2#32 tiny).isBusy = true := ⟨rfl, rfl⟩

/-- The least and the greatest capacities. -/
theorem witness_LegalAccessesAnswerOkay :
    ({ tiny with inCap := 1#32, outCap := 1073741824#32 } : State).CapsOk := by
  unfold State.CapsOk; decide

theorem witness_ErrorAnswersHaveNoEffect :
    (tiny.transact (.read (inAddr 62) .word)).1.resp = .error ∧
      (tiny.transact (.write (inAddr 64) (.byte 1#8))).1.resp = .error ∧
      (tiny.transact (.write (regAddr .ctrl) (.byte 0#8))).1.resp = .error := by decide +kernel

theorem witness_ReadsChangeNoState : tiny.isBusy = false := rfl

/-- Each size at the last offset where it fits. -/
theorem witness_InWindowWriteThenRead :
    tiny.CapsOk ∧ tiny.isBusy = false ∧ LegalAt tiny.inCap 63 .byte ∧ LegalAt tiny.inCap 62 .half ∧
      LegalAt tiny.inCap 60 .word ∧ LegalAt tiny.inCap 0 .word := by
  unfold State.CapsOk LegalAt; decide

/-- A word at the end of either window, and, with OUT_CAP = 23, the last half and the last byte (P1, statements
13 and 14), which lie in no legal word. -/
theorem witness_WindowReadsAreLittleEndian :
    tiny.CapsOk ∧ tiny.isBusy = false ∧ LegalAt tiny.inCap 60 .word ∧ LegalAt tiny.outCap 60 .word ∧
      LegalAt 23#32 20 .half ∧ LegalAt 23#32 22 .byte ∧ ¬ LegalAt 23#32 20 .word := by
  unfold State.CapsOk LegalAt; decide

theorem witness_AccessesWhileBusy :
    ∃ s : State, s.Inv ∧ s.isBusy = true ∧ LegalAt s.inCap 60 .word ∧ LegalAt s.outCap 63 .byte ∧
      (0x08 % 4 = 0 ∧ 0x08 ≤ 0x08) ∧ 0x1C % 4 = 0 ∧ (0xFFC % 4 = 0 ∧ 0x20 ≤ 0xFFC ∧ 0xFFC < 0x1000) :=
  ⟨_, due_inv, rfl, by unfold LegalAt; decide, by unfold LegalAt; decide, by decide, by decide, by decide⟩

theorem witness_TransactionsInIssueOrder :
    ∃ (s : State) (tr : Transaction) (rest : List HostAction),
      s.dueCommand = none ∧ s.host = .access tr :: rest ∧ rest ≠ [] :=
  ⟨{ tiny with host := [startOp 1#32, waitDone] }, _, _, rfl, rfl, by decide⟩

/-- A POLL that reads again (DONE = 0), and one that ends (DONE = 1). -/
theorem witness_PollRepeatsUntilItMatches :
    (∃ (s : State) (addr mask value : Word) (rest : List HostAction),
      s.dueCommand = none ∧ s.host = .poll addr mask value :: rest ∧
        answerWord (s.transact (.read addr .word)).1 &&& mask ≠ value) ∧
    (∃ (s : State) (addr mask value : Word) (rest : List HostAction),
      s.dueCommand = none ∧ s.host = .poll addr mask value :: rest ∧
        answerWord (s.transact (.read addr .word)).1 &&& mask = value) :=
  ⟨⟨{ tiny with host := [waitDone] }, _, _, _, _, rfl, rfl, by decide⟩,
    ⟨{ tiny with done := true, host := [waitDone] }, _, _, _, _, rfl, rfl, by decide⟩⟩

/-! ### Witnesses: what changes the flags and the buffers -/

/-- DONE rises at a completion. -/
theorem witness_DoneChangesOnlyByItsEvents_rise :
    ∃ s t : State, step s = .next t ∧ s.done = false ∧ t.done = true :=
  ⟨due 3#32 tiny, _, rfl, rfl, rfl⟩

/-- DONE falls at a start, at an acknowledge and at reset. -/
theorem witness_DoneChangesOnlyByItsEvents_fall :
    (∃ s t : State, step s = .next t ∧ s.done = true ∧ t.done = false ∧ s.host = [startOp 1#32]) ∧
    (∃ s t : State, step s = .next t ∧ s.done = true ∧ t.done = false ∧
      s.host = [wr32 (regAddr .status) 2#32]) ∧
    (∃ s t : State, step s = .next t ∧ s.done = true ∧ t.done = false ∧ s.host = [.reset]) :=
  ⟨⟨{ tiny with done := true, host := [startOp 1#32] }, _, rfl, rfl, rfl, rfl⟩,
    ⟨{ tiny with done := true, host := [wr32 (regAddr .status) 2#32] }, _, rfl, rfl, rfl, rfl⟩,
    ⟨{ tiny with done := true, host := [.reset] }, _, rfl, rfl, rfl, rfl⟩⟩

/-- BUSY rises at a start, falls at a completion and at reset, and stays through another CMD write. -/
theorem witness_BusyChangesOnlyByItsEvents :
    (∃ s t : State, step s = .next t ∧ s.isBusy = false ∧ t.isBusy = true) ∧
    (∃ s t : State, step s = .next t ∧ s.isBusy = true ∧ t.isBusy = false ∧ s.dueCommand = some 3#32) ∧
    (∃ s t : State, step s = .next t ∧ s.isBusy = true ∧ t.isBusy = false ∧ s.dueCommand = none) ∧
    (∃ s t : State, step s = .next t ∧ s.isBusy = true ∧ t.isBusy = true ∧ s.host = [startOp 2#32]) :=
  ⟨⟨{ tiny with host := [startOp 1#32] }, _, rfl, rfl, rfl⟩, ⟨due 3#32 tiny, _, rfl, rfl, rfl, rfl⟩,
    ⟨{ due 3#32 tiny with wait := 1, host := [.reset] }, _, rfl, rfl, rfl, rfl⟩,
    ⟨{ due 3#32 tiny with wait := 1, host := [startOp 2#32] }, _, rfl, rfl, rfl, rfl⟩⟩

/-- ERR changes at a completion, at a start and at reset. -/
theorem witness_ErrAndOutLenChangeOnlyByTheirEvents :
    (∃ s t : State, step s = .next t ∧ t.err ≠ s.err ∧ s.dueCommand = some 3#32) ∧
    (∃ s t : State, step s = .next t ∧ t.err ≠ s.err ∧ s.host = [startOp 1#32]) ∧
    (∃ s t : State, step s = .next t ∧ t.outLen ≠ s.outLen ∧ s.host = [.reset]) :=
  ⟨⟨due 3#32 tiny, _, rfl, by decide, rfl⟩,
    ⟨{ tiny with err := 5#4, host := [startOp 1#32] }, _, rfl, by decide, rfl⟩,
    ⟨{ tiny with outLen := 23#32, host := [.reset] }, _, rfl, by decide, rfl⟩⟩

/-- irq rises at a completion with IE = 1, and at the IE write with DONE = 1 (V10). -/
theorem witness_IrqRisesOnlyAtCompletionOrEnable :
    (∃ s t : State, step s = .next t ∧ s.irq = false ∧ t.irq = true ∧ s.dueCommand = some 3#32) ∧
    (∃ s t : State, step s = .next t ∧ s.irq = false ∧ t.irq = true ∧ s.dueCommand = none) :=
  ⟨⟨{ due 3#32 tiny with ie := true }, _, rfl, rfl, rfl, rfl⟩,
    ⟨{ tiny with done := true, host := [wr32 (regAddr .ctrl) 1#32] }, _, rfl, rfl, rfl, rfl⟩⟩

theorem witness_InputFixedWhileBusy :
    ∃ s t : State, s.isBusy = true ∧ s.dueCommand = none ∧ step s = .next t ∧
      s.host = [wr32 (regAddr .inLen) 4#32] :=
  ⟨{ due 1#32 tiny with wait := 3, host := [wr32 (regAddr .inLen) 4#32] }, _, rfl, rfl, rfl, rfl⟩

theorem witness_OutStableBetweenCompletions :
    ∃ s t : State, step s = .next t ∧ s.dueCommand = none ∧ ∀ rest, s.host ≠ .reset :: rest :=
  ⟨{ tiny with host := [startOp 1#32] }, _, rfl, rfl, fun _ h => by cases h⟩

/-! ### Witnesses: the two commands -/

/-- The tree of S1 (V4, row 1). -/
def s1Tree : Tree :=
  .node 4 (.leaf 1 0x62#8 3) (.node 3 (.leaf 2 0x63#8 2) (.leaf 0 0x61#8 3) 5) 8

/-- S1 with an OUT of `n` bytes. -/
def s1State (n : Nat) : State := { loaded (bs s1) with outCap := BitVec.ofNat 32 n }

/-- The container's size is OUT_CAP itself. -/
theorem witness_CompressWritesTheContainer :
    1 ≤ (s1State 23).inLen.toNat ∧ (s1State 23).inLen.toNat ≤ (s1State 23).inCap.toNat ∧
      treeBuild (entriesOf (s1State 23).input) = .ok s1Tree ∧
      containerSize (symbolsOf (s1State 23).input).length
        (encodeBits (codeGen s1Tree) (s1State 23).input).length = (s1State 23).outCap.toNat :=
  ⟨by decide, by decide, by rfl, by decide +kernel⟩

/-- Each error of COMPRESS at its boundary: IN_LEN = IN_CAP + 1, IN_LEN = 0, OUT_CAP one too small. -/
theorem witness_CompressErrors :
    ({ tiny with inLen := 65#32 } : State).inCap.toNat < ({ tiny with inLen := 65#32 } : State).inLen.toNat ∧
      tiny.inLen.toNat = 0 ∧
      treeBuild (entriesOf (s1State 22).input) = .ok s1Tree ∧
      (s1State 22).outCap.toNat < containerSize (symbolsOf (s1State 22).input).length
        (encodeBits (codeGen s1Tree) (s1State 22).input).length :=
  ⟨by decide, by decide, by rfl, by decide +kernel⟩

theorem witness_SizesOfResults :
    (∃ s t : State, exec .compress s = .next t ∧ t.err = 0#4) ∧
      ∃ s t : State, exec .decompress s = .next t ∧ t.err = 0#4 :=
  ⟨⟨s1State 23, _, rfl, by rfl⟩, ⟨loaded (bs s1Container), _, rfl, by rfl⟩⟩

/-- A container whose length is IN_CAP and whose result fills OUT. -/
def back : State := { loaded (bs s1Container) with inCap := 23#32, outCap := 8#32 }

theorem witness_DecompressWritesTheOriginal :
    back.inLen.toNat ≤ back.inCap.toNat ∧ 5 ≤ back.inLen.toNat ∧
      6 + 5 * symbolCount (byteAt back.input 4) ≤ back.inLen.toNat ∧ PairsOk (storedPairs back.input) ∧
      totalFreq (storedPairs back.input) = le32At back.input 0 ∧
      le32At back.input 0 ≤ back.outCap.toNat ∧ storedPad back.input ≤ 7 ∧
      storedPad back.input ≤ 8 * (storedPayload back.input).length ∧
      treeBuild (storedPairs back.input) = .ok s1Tree ∧
      decodeBits s1Tree (le32At back.input 0) (storedBits back.input) = .ok (bs s1) :=
  ⟨by decide, by decide, by decide +kernel, by decide +kernel, by decide +kernel, by decide +kernel,
    by decide +kernel, by decide +kernel, by rfl, by rfl⟩

theorem witness_RoundTrip :
    ∃ s t u : State, exec .compress s = .next t ∧ t.err = 0#4 ∧ u.inLen = t.outLen ∧
      (∀ k, k < t.outLen.toNat → u.inByte k = t.outByte k) ∧ t.outLen.toNat ≤ u.inCap.toNat ∧
      s.inLen.toNat ≤ u.outCap.toNat := by
  have h : (s1State 23).complete (s1State 23).compressResult = (s1State 23).completeOk (bs s1Container) := by
    rfl
  refine ⟨s1State 23, _, back, rfl, ?_, ?_, ?_, ?_, by decide⟩ <;> rw [h]
  · rfl
  · rfl
  · intro k hk
    have hk : k < 23 := hk
    interval_cases k <;> rfl
  · decide

/-! ### Witnesses: the data path -/

theorem witness_FrequencyTableLaws : 1 ≤ (bs [0]).length ∧ (bs [0]).length ≤ 2 ^ 30 := by decide

/-- Two nodes of equal weight and one lighter. -/
def threeNodes : List Tree := [.leaf 1 0x62#8 3, .leaf 2 0x63#8 2, .leaf 0 0x61#8 3]

theorem witness_RemovalTakesTheLeastKey :
    (threeNodes.map Tree.index).Nodup ∧
      extractMin threeNodes = some (.leaf 2 0x63#8 2, [.leaf 1 0x62#8 3, .leaf 0 0x61#8 3]) := by decide

theorem witness_MergeTakesTheTwoLeastKeys :
    2 ≤ threeNodes.length ∧ (threeNodes.map Tree.index).Nodup := by decide

/-- One entry, and two. -/
def oneEntry : List Entry := [⟨0x41#8, 1000⟩]

def twoEntries : List Entry := [⟨0x62#8, 1⟩, ⟨0x61#8, 1⟩]

theorem witness_TreeStructure : oneEntry ≠ [] ∧ twoEntries ≠ [] ∧ 2 ≤ twoEntries.length := by decide

theorem witness_TreeWeights :
    treeBuild twoEntries = .ok (.node 2 (.leaf 0 0x62#8 1) (.leaf 1 0x61#8 1) 2) ∧
      totalFreq twoEntries < 2 ^ 32 := ⟨rfl, by decide⟩

theorem witness_CodesArePrefixFreeAndComplete :
    oneEntry.length = 1 ∧ twoEntries ≠ [] ∧ twoEntries.length ≤ 256 ∧ 2 ≤ twoEntries.length ∧
      (fun _ : Nat => true) 0 = true := by decide

theorem witness_EncodedLength : treeBuild (entriesOf (bs s1)) = .ok s1Tree := by rfl

theorem witness_PackLaws : 0 < (pack [true]).1.length ∧ (7 : Nat) < 8 := by decide

theorem witness_PackAndUnpackAreInverse :
    (7 : Nat) ≤ 7 ∧ 7 ≤ 8 * (bs [0x80]).length ∧ 8 * (bs [0x80]).length - 7 ≤ 1 ∧
      ((bs [0x80]).flatMap bitsOfByte)[1]? = some false := by decide

/-- The last bit of S1's payload is cut off. -/
theorem witness_TruncatedBitsAreMalformed :
    treeBuild (entriesOf (bs s1)) = .ok s1Tree ∧ (∀ b ∈ bs s1, b ∈ (entriesOf (bs s1)).map Entry.sym) ∧
      12 < (encodeBits (codeGen s1Tree) (bs s1)).length := ⟨by rfl, by decide +kernel, by decide⟩

/-- S1's bits with three bits more. -/
theorem witness_LeftoverBitsAreIgnored :
    treeBuild (entriesOf (bs s1)) = .ok s1Tree ∧ (∀ b ∈ bs s1, b ∈ (entriesOf (bs s1)).map Entry.sym) ∧
      ((entriesOf (bs s1)).map Entry.sym).Nodup ∧
      decodeBits s1Tree 8 (encodeBits (codeGen s1Tree) (bs s1) ++ [true, true, true]) = .ok (bs s1) :=
  ⟨by rfl, by decide +kernel, by decide +kernel, by rfl⟩

theorem witness_ParseRecoversFrame :
    1 ≤ oneEntry.length ∧ oneEntry.length ≤ 256 ∧ PairsOk oneEntry ∧ totalFreq oneEntry = 1000 ∧
      1000 < 2 ^ 32 ∧ 255 < 256 := by decide

theorem witness_ParseAcceptsOnlyContainers : ∃ p, parse (bs s1Container) = .ok p := ⟨_, rfl⟩

end Sys2Proof.Tests
end

section
/-! PROOFS. The register region under a legal access, the parameter registers along a step, and CTRL.IE as a
field that only irq and a read of CTRL look at (spec/10_state.md, R11 to R19). -/

namespace Sys2Proof.Machine

open Sys2Proof (Byte Word Instr decode)

/-! ### A legal register access (R29) -/

/-- A 4-byte read at a multiple of 4 in the register region answers the register's value and changes nothing. -/
theorem portRead_reg (s : State) {off : Nat} (hlt : off < 0x1000) (h4 : off % 4 = 0) :
    s.portRead (BitVec.ofNat 32 off) .word = (.read (.word (s.readReg (regAt off))) .okay, s) := by
  simp [State.portRead, placeOf_ofNat s hlt, regAccessOk, h4]

/-- A 4-byte write at a multiple of 4 in the register region is the register's write, answered OKAY. -/
theorem portWrite_reg (s : State) (v : Word) {off : Nat} (hlt : off < 0x1000) (h4 : off % 4 = 0) :
    s.portWrite (BitVec.ofNat 32 off) (.word v) = (.write .okay, s.writeReg v (regAt off)) := by
  simp [State.portWrite, placeOf_ofNat s hlt, regAccessOk, datumSize, datumWord, h4]

/-- Every offset from 0x20 on is reserved (R19). -/
theorem regAt_reserved {off : Nat} (h : 0x20 ≤ off) : regAt off = .reserved := by
  unfold regAt
  repeat rw [if_neg (by omega)]

/-- No address but 0x0C names CTRL (R14). -/
theorem regAt_ne_ctrl {s : State} {addr : Word} {off : Nat} (hp : s.placeOf addr = .reg off)
    (h : addr ≠ 0x0C#32) : regAt off ≠ .ctrl := by
  intro hr
  obtain ⟨hoff, -⟩ := placeOf_reg hp
  exact h (BitVec.eq_of_toNat_eq (hoff.trans (regAt_eq_of.1 hr)))

/-! ### The parameter registers (R12, R13) -/

/-- `t` shows the same parameters as `s`. -/
def State.SameCaps (s t : State) : Prop := t.inCap = s.inCap ∧ t.outCap = s.outCap

theorem complete_sameCaps (s : State) (r : Except CmdError (List Byte)) : s.SameCaps (s.complete r) := by
  cases r <;> exact ⟨rfl, rfl⟩

theorem transact_sameCaps (s : State) (t : Transaction) : s.SameCaps (s.transact t).2 := by
  obtain ⟨hin, hout, -⟩ := transact_frame s t
  exact ⟨hin, hout⟩

theorem act_sameCaps (s : State) : s.SameCaps s.act := by
  rcases act_cases s with ⟨-, h⟩ | ⟨rest, -, h⟩ | ⟨t, rest, -, h⟩ | ⟨a, m, v, rest, l, -, -, h⟩ <;> rw [h]
  · exact ⟨rfl, rfl⟩
  · exact ⟨rfl, rfl⟩
  · exact transact_sameCaps (s.setHost rest) t
  · exact transact_sameCaps s (.read a .word)

/-- No step changes a parameter register. -/
theorem step_sameCaps {s t : State} (h : step s = .next t) : s.SameCaps t := by
  rcases step_cases h with ⟨w, i, -, -, rfl⟩ | ⟨w, e, -, -, rfl⟩ | ⟨-, rfl⟩
  · exact complete_sameCaps s _
  · exact complete_sameCaps s (.error .illegalCommand)
  · exact act_sameCaps s.tick

/-- A parameter below 2^30, plus one, as a 32-bit register: 1 to 2^30 (R3). -/
theorem toNat_cap_inRange (k : Fin 1073741824) :
    1 ≤ (BitVec.ofNat 32 (k.val + 1)).toNat ∧ (BitVec.ofNat 32 (k.val + 1)).toNat ≤ 2 ^ 30 := by
  have := k.isLt
  rw [BitVec.toNat_ofNat]
  omega

theorem reset_capsOk : State.reset.CapsOk :=
  ⟨toNat_cap_inRange Config.inCapIndex, toNat_cap_inRange Config.outCapIndex⟩

/-- Settles O6: the port's rules for a legal register access at 0x00, 0x04 and 0x08, whose writes are ignored,
and the frame of every step. -/
theorem constantRegistersNeverChange : Obligations.ConstantRegistersNeverChange := by
  refine ⟨reset_capsOk, rfl, rfl, fun _ _ h => step_sameCaps h, fun s v => ?_⟩
  exact ⟨portRead_reg s (off := 0x00) (by decide) (by decide),
    portWrite_reg s v (off := 0x00) (by decide) (by decide),
    portRead_reg s (off := 0x04) (by decide) (by decide),
    portRead_reg s (off := 0x08) (by decide) (by decide),
    portWrite_reg s v (off := 0x04) (by decide) (by decide),
    portWrite_reg s v (off := 0x08) (by decide) (by decide)⟩

/-! ### Reserved bits, and which registers read back (R14, R15, R19) -/

/-- CTRL bits 31:1 read 0 (R14). -/
theorem ctrlWord_reserved (s : State) : s.ctrlWord &&& 0xFFFFFFFE#32 = 0#32 := by
  rw [State.ctrlWord_eq]
  cases s.ie <;> rfl

/-- STATUS bits 7:2 and 31:12 read 0 (R15). -/
theorem statusWord_reserved (s : State) : s.statusWord &&& 0xFFFFF0FC#32 = 0#32 := by
  rw [State.statusWord_eq]
  generalize s.err = e
  cases s.isBusy <;> cases s.done <;> (revert e; decide)

/-- A CTRL write looks at bit 0 alone (R14). -/
theorem writeCtrl_masked (s : State) (v : Word) : s.writeCtrl v = s.writeCtrl (v &&& 1#32) := by
  simp [State.writeCtrl]

/-- A STATUS write looks at bit 1 alone (R15). -/
theorem writeStatus_masked (s : State) (v : Word) : s.writeStatus v = s.writeStatus (v &&& 2#32) := by
  have hbit : (v &&& 2#32).getLsbD 1 = v.getLsbD 1 := by simp
  simp only [State.writeStatus, hbit]

theorem writeInLen_idle {s : State} (h : s.isBusy = false) (v : Word) : s.writeInLen v = s.setInLen v := by
  simp [State.writeInLen, h]

/-- A register with a reserved mask that reads 0 does not read back the value with all bits 1. -/
theorem ne_allOnes_of_masked {x m : Word} (h : x &&& m = 0#32) (hm : m ≠ 0#32) : x ≠ BitVec.allOnes 32 := by
  rintro rfl
  exact hm (BitVec.allOnes_and.symm.trans h)

/-- A register whose write is ignored does not read back its own value plus 1. -/
theorem ne_readBack_of_ignored {s : State} {r : Reg} (h : ∀ v, s.writeReg v r = s) :
    ∃ v, (s.writeReg v r).readReg r ≠ v :=
  ⟨s.readReg r + 1#32, by rw [h]; simp⟩

/-- Every register but IN_LEN has, in every state, a value that does not read back after it is written. -/
theorem exists_not_readBack (s : State) {r : Reg} (h : r ≠ .inLen) :
    ∃ v, (s.writeReg v r).readReg r ≠ v := by
  cases r with
  | id | inCap | outCap | outLen | reserved => exact ne_readBack_of_ignored fun _ => rfl
  | ctrl => exact ⟨_, ne_allOnes_of_masked (ctrlWord_reserved _) (by decide)⟩
  | status => exact ⟨_, ne_allOnes_of_masked (statusWord_reserved _) (by decide)⟩
  | cmd => exact ⟨1#32, by simp [State.readReg]⟩
  | inLen => exact absurd rfl h

/-- Settles O16, from the rules for a legal register access, the reserved masks of CTRL and STATUS, and a value
for each register but IN_LEN that does not read back. -/
theorem reservedSpaceReadsZero : Obligations.ReservedSpaceReadsZero := by
  refine ⟨fun s off v hge hlt h4 => ?_, fun s => ⟨ctrlWord_reserved s, statusWord_reserved s⟩,
    fun s v => ⟨writeCtrl_masked s v, writeStatus_masked s v⟩, fun s v hidle => ?_,
    fun s _ h => exists_not_readBack s h,
    fun s v => portWrite_reg s v (off := 0x1C) (by decide) (by decide)⟩
  · rw [portRead_reg s hlt h4, portWrite_reg s v hlt h4, regAt_reserved hge]
    exact ⟨rfl, rfl⟩
  · rw [State.writeReg, writeInLen_idle hidle]
    rfl

/-! ### Nothing but irq and a read of CTRL depends on IE (R14)

Each operation on `s.setIE b` answers what it answers on `s`, and leaves what it leaves of `s` with IE = `b`. -/

section
variable (s : State) (b : Bool)

theorem setIE_placeOf (addr : Word) : (s.setIE b).placeOf addr = s.placeOf addr := rfl

theorem setIE_inCapacity : (s.setIE b).inCapacity = s.inCapacity := rfl

theorem setIE_outCapacity : (s.setIE b).outCapacity = s.outCapacity := rfl

theorem complete_setIE (r : Except CmdError (List Byte)) :
    (s.setIE b).complete r = (s.complete r).setIE b := by
  cases r <;> rfl

theorem exec_setIE {t : State} {i : Instr} (h : exec i s = .next t) :
    exec i (s.setIE b) = .next (t.setIE b) := by
  rw [exec_eq] at h ⊢
  cases h
  have hres : (s.setIE b).executed i = s.executed i := by cases i <;> rfl
  rw [hres, complete_setIE]

/-- The completion of a due word, legal or not, is the same with any IE. -/
theorem step_setIE_of_due {t : State} {w : Word} (hdue : s.dueCommand = some w) (h : step s = .next t) :
    step (s.setIE b) = .next (t.setIE b) := by
  have hdue' : (s.setIE b).dueCommand = some w := hdue
  simp only [step, hdue] at h
  simp only [step, hdue']
  cases hw : decode w with
  | ok i => rw [hw] at h; exact exec_setIE s b h
  | error e => rw [hw] at h; cases h; rfl

theorem readReg_setIE {r : Reg} (h : r ≠ .ctrl) : (s.setIE b).readReg r = s.readReg r := by
  cases r with
  | ctrl => exact absurd rfl h
  | id | inCap | outCap | status | cmd | inLen | outLen | reserved => rfl

theorem writeReg_setIE (v : Word) {r : Reg} (h : r ≠ .ctrl) :
    (s.setIE b).writeReg v r = (s.writeReg v r).setIE b := by
  cases r with
  | ctrl => exact absurd rfl h
  | id | inCap | outCap | outLen | reserved => rfl
  | status =>
    simp only [State.writeReg]
    unfold State.writeStatus
    rw [State.setIE_isBusy]
    split
    · rfl
    · split <;> rfl
  | cmd =>
    simp only [State.writeReg]
    unfold State.writeCmd
    rw [State.setIE_isBusy]
    split <;> rfl
  | inLen =>
    simp only [State.writeReg]
    unfold State.writeInLen
    rw [State.setIE_isBusy]
    split <;> rfl

theorem readWindow_setIE (z : Size) (byte : Nat → Byte) (i : Nat) :
    (s.setIE b).readWindow z byte i = ((s.readWindow z byte i).1, (s.readWindow z byte i).2.setIE b) := by
  unfold State.readWindow
  rw [State.setIE_isBusy]
  split <;> rfl

theorem writeIn_setIE (i : Nat) (d : Datum) : (s.setIE b).writeIn i d = (s.writeIn i d).setIE b := by
  unfold State.writeIn
  rw [State.setIE_isBusy]
  split <;> rfl

theorem portRead_setIE {addr : Word} (z : Size) (h : addr ≠ 0x0C#32) :
    (s.setIE b).portRead addr z = ((s.portRead addr z).1, (s.portRead addr z).2.setIE b) := by
  simp only [State.portRead, setIE_placeOf]
  cases hp : s.placeOf addr with
  | reg off =>
    simp only [readReg_setIE s b (regAt_ne_ctrl hp h)]
    split <;> rfl
  | inWindow i =>
    dsimp only
    rw [setIE_inCapacity]
    split
    · exact readWindow_setIE ..
    · rfl
  | outWindow i =>
    dsimp only
    rw [setIE_outCapacity]
    split
    · exact readWindow_setIE ..
    · rfl
  | unmapped => rfl

theorem portWrite_setIE {addr : Word} (d : Datum) (h : addr ≠ 0x0C#32) :
    (s.setIE b).portWrite addr d = ((s.portWrite addr d).1, (s.portWrite addr d).2.setIE b) := by
  simp only [State.portWrite, setIE_placeOf, writeIn_setIE]
  cases hp : s.placeOf addr with
  | reg off =>
    simp only [writeReg_setIE s b _ (regAt_ne_ctrl hp h)]
    split <;> rfl
  | inWindow i =>
    dsimp only
    rw [setIE_inCapacity]
    split <;> rfl
  | outWindow i => rfl
  | unmapped => rfl

/-- A transaction that is no access to CTRL answers and does the same with any IE. -/
theorem transact_setIE (tr : Transaction) (hread : ∀ z, tr ≠ .read 0x0C#32 z)
    (hwrite : ∀ d, tr ≠ .write 0x0C#32 d) :
    (s.setIE b).transact tr = ((s.transact tr).1, (s.transact tr).2.setIE b) := by
  cases tr with
  | read addr z => exact portRead_setIE s b z (by rintro rfl; exact hread z rfl)
  | write addr d => exact portWrite_setIE s b d (by rintro rfl; exact hwrite d rfl)

end

/-- CTRL reads bit 0 of the value written (R14). -/
theorem ctrlWord_writeCtrl (s : State) (v : Word) : (s.writeCtrl v).ctrlWord = v &&& 1#32 := by
  apply BitVec.eq_of_getLsbD_eq
  intro k hk
  rw [State.ctrlWord_getLsbD, State.writeCtrl, State.setIE_ie, BitVec.getLsbD_and, BitVec.getLsbD_one]
  by_cases h0 : k = 0 <;> simp [h0]

/-- Settles O17: a CTRL write is `setIE` of bit 0, and every completion and every transaction at another address
commutes with `setIE`. -/
theorem ctrlWriteSetsInterruptEnable : Obligations.CtrlWriteSetsInterruptEnable := by
  refine ⟨rfl, fun s v => ⟨?_, ctrlWord_writeCtrl s v, rfl, fun b => ⟨?_, ?_, ?_⟩⟩⟩
  · exact portWrite_reg s v (off := 0x0C) (by decide) (by decide)
  · exact fun _ _ h => exec_setIE s b h
  · exact fun _ _ hdue h => step_setIE_of_due s b hdue h
  · exact fun tr hread hwrite => transact_setIE s b tr hread hwrite

end Sys2Proof.Machine
end

section
/-! PROOFS. The slave port when it answers ERROR, and when it is used while BUSY = 1
(spec/20_memory.md, R32, R35). -/

namespace Sys2Proof.Machine

open Sys2Proof (Byte Word)

/-! ### What an ERROR answer leaves (R32) -/

/-- A read that answers ERROR is `readError`: data 0, and the state as it was. -/
theorem portRead_of_error {s : State} {addr : Word} {z : Size} (h : (s.portRead addr z).1.resp = .error) :
    s.portRead addr z = s.readError z := by
  revert h
  rw [State.portRead]
  cases s.placeOf addr with
  | reg off =>
    dsimp only
    split
    · exact nofun
    · exact fun _ => rfl
  | inWindow i | outWindow i =>
    dsimp only
    split
    · rw [readWindow_resp]
      exact nofun
    · exact fun _ => rfl
  | unmapped => exact fun _ => rfl

/-- A write that answers ERROR leaves the state as it was. -/
theorem portWrite_of_error {s : State} {addr : Word} {d : Datum} (h : (s.portWrite addr d).1.resp = .error) :
    s.portWrite addr d = (.write .error, s) := by
  revert h
  rw [State.portWrite]
  cases s.placeOf addr with
  | reg off | inWindow i =>
    dsimp only
    split
    · exact nofun
    · exact fun _ => rfl
  | outWindow i | unmapped => exact fun _ => rfl

/-- Settles O21: an ERROR answer comes from the branches of the port that return the state itself. -/
theorem errorAnswersHaveNoEffect : Obligations.ErrorAnswersHaveNoEffect := by
  intro s t h
  cases t with
  | read addr z =>
    have heq : s.transact (.read addr z) = s.readError z := portRead_of_error h
    rw [heq]
    refine ⟨rfl, fun addr' z' ht => ?_⟩
    cases ht
    rfl
  | write addr d =>
    have heq : s.transact (.write addr d) = (.write .error, s) := portWrite_of_error h
    rw [heq]
    exact ⟨rfl, nofun⟩

/-! ### A legal window access (R30) -/

theorem windowAccessOk_of_legalAt {cap : Word} {i : Nat} {z : Size} (h : LegalAt cap i z) :
    windowAccessOk cap.toNat i z = true := by
  obtain ⟨haligned, hinside⟩ := h
  simp [windowAccessOk, haligned, hinside]

theorem lt_of_legalAt {cap : Word} {i : Nat} {z : Size} (h : LegalAt cap i z) : i < cap.toNat := by
  obtain ⟨-, hinside⟩ := h
  have hpos := sizeBytes_pos z
  omega

/-- A legal read at offset `i` of the IN window is a window read of IN. -/
theorem portRead_in {s : State} {i : Nat} {z : Size} (hc : s.CapsOk) (h : LegalAt s.inCap i z) :
    s.portRead (inAddr i) z = s.readWindow z s.inByte i := by
  obtain ⟨⟨-, hin⟩, -⟩ := hc
  rw [State.portRead, placeOf_in s (lt_of_legalAt h) hin]
  exact if_pos (windowAccessOk_of_legalAt h)

/-- A legal read at offset `i` of the OUT window is a window read of OUT. -/
theorem portRead_out {s : State} {i : Nat} {z : Size} (hc : s.CapsOk) (h : LegalAt s.outCap i z) :
    s.portRead (outAddr i) z = s.readWindow z s.outByte i := by
  obtain ⟨⟨-, hin⟩, -, hout⟩ := hc
  rw [State.portRead, placeOf_out s (lt_of_legalAt h) hin hout]
  exact if_pos (windowAccessOk_of_legalAt h)

/-- A legal write at offset `i` of the IN window is a write to IN, answered OKAY. -/
theorem portWrite_in {s : State} {i : Nat} {d : Datum} (hc : s.CapsOk) (h : LegalAt s.inCap i (datumSize d)) :
    s.portWrite (inAddr i) d = (.write .okay, s.writeIn i d) := by
  obtain ⟨⟨-, hin⟩, -⟩ := hc
  rw [State.portWrite, placeOf_in s (lt_of_legalAt h) hin]
  exact if_pos (windowAccessOk_of_legalAt h)

/-! ### The operations while BUSY = 1 (R35) -/

section
variable {s : State} (hb : s.isBusy = true)
include hb

/-- While BUSY no register but CTRL takes a write. -/
theorem writeReg_busy (v : Word) {r : Reg} (h : r ≠ .ctrl) : s.writeReg v r = s := by
  cases r with
  | ctrl => exact absurd rfl h
  | id | inCap | outCap | outLen | reserved => rfl
  | status => exact if_pos hb
  | cmd => exact if_pos hb
  | inLen => exact if_pos hb

/-- While BUSY a legal register write at any offset but CTRL's answers OKAY and changes nothing. -/
theorem portWrite_reg_busy (v : Word) {off : Nat} (hlt : off < 0x1000) (h4 : off % 4 = 0) (hne : off ≠ 0x0C) :
    s.portWrite (BitVec.ofNat 32 off) (.word v) = (.write .okay, s) := by
  have hctrl : regAt off ≠ .ctrl := fun hr => hne (regAt_eq_of.1 hr)
  rw [portWrite_reg s v hlt h4, writeReg_busy hb v hctrl]

theorem writeIn_busy (i : Nat) (d : Datum) : s.writeIn i d = s := if_pos hb

/-- While BUSY a window read gives free bytes of the next draw, whatever the buffer holds. -/
theorem readWindow_busy (z : Size) (f : Nat → Byte) (i : Nat) :
    s.readWindow z f i = (.read (datumOfBytes z (Config.freeByte s.draws)) .okay, s.afterDraw) := if_pos hb

/-- While BUSY the invariant fixes STATUS at 1: BUSY = 1, DONE = 0, ERR = 0. -/
theorem statusWord_busy (hinv : s.Inv) : s.statusWord = 1#32 := by
  obtain ⟨hdone, herr, -⟩ := hinv.busy_clear hb
  rw [State.statusWord_clear hdone herr, if_pos hb]

end

/-- Settles O25: each access is legal, so the port hands it to the register's or the window's operation, which
BUSY = 1 turns into no effect (a write) or a draw (a window read). -/
theorem accessesWhileBusy : Obligations.AccessesWhileBusy := by
  intro s hinv hb
  obtain ⟨-, -, houtLen⟩ := hinv.busy_clear hb
  refine ⟨fun v => ⟨?cmd, ?inLen, ?status, ?ctrl⟩, fun off v h4 hoff => ?ignored, fun i d h => ?inWrite,
    fun off hlt h4 => portRead_reg s hlt h4, statusWord_busy hb hinv, houtLen,
    fun i z h => ?inRead, fun i z h => ?outRead⟩
  case cmd => exact portWrite_reg_busy hb v (off := 0x14) (by decide) (by decide) (by decide)
  case inLen => exact portWrite_reg_busy hb v (off := 0x18) (by decide) (by decide) (by decide)
  case status => exact portWrite_reg_busy hb v (off := 0x10) (by decide) (by decide) (by decide)
  case ctrl => exact portWrite_reg s v (off := 0x0C) (by decide) (by decide)
  case ignored => exact portWrite_reg_busy hb v (by omega) h4 (by omega)
  case inWrite => rw [portWrite_in hinv.caps h, writeIn_busy hb]
  case inRead => exact (portRead_in hinv.caps h).trans (readWindow_busy hb ..)
  case outRead => exact (portRead_out hinv.caps h).trans (readWindow_busy hb ..)

end Sys2Proof.Machine
end

section
/-! PROOFS. The decoder and the encoder are inverse to each other: a word is its two fields, an opcode is its
command, and the decoder looks at nothing else (spec/30_encoding.md, R41 to R43). -/

namespace Sys2Proof

/-- OPC and RSV make up the whole word (R41): putting a word's fields together gives it back. -/
@[simp] theorem wordOfFields_commandFields (w : Word) : wordOfFields (commandFields w) = w :=
  BitVec.extractLsb'_append_extractLsb' (w := 24) (len := 8)

/-- The fields of a word that was put together are the ones it was put together from (R41). -/
@[simp] theorem commandFields_wordOfFields (f : CommandFields) : commandFields (wordOfFields f) = f := by
  have hopc : (wordOfFields f).extractLsb' 0 8 = f.opc := BitVec.extractLsb'_append_eq_right
  have hrsv : (wordOfFields f).extractLsb' 8 24 = f.rsv := BitVec.extractLsb'_append_eq_left
  rw [commandFields, hopc, hrsv]

/-- A word has given fields exactly when it is the word of those fields. -/
theorem commandFields_eq_iff {w : Word} {f : CommandFields} : commandFields w = f ↔ w = wordOfFields f := by
  constructor
  · rintro rfl
    exact (wordOfFields_commandFields w).symm
  · rintro rfl
    exact commandFields_wordOfFields f

/-- The opcode table read from opcodes to commands is the table read from commands to opcodes (R42). -/
theorem commandOfOpcode_eq_some {opc : BitVec 8} {i : Instr} :
    commandOfOpcode opc = some i ↔ opc = opcodeOf i := by
  constructor
  · intro h
    rw [commandOfOpcode] at h
    split at h
    next h1 => cases h; exact h1
    next =>
      split at h
      next h2 => cases h; exact h2
      next => cases h
  · rintro rfl
    cases i <;> rfl

/-- The decoder accepts a word as a command exactly when RSV is zero and OPC stands for the command (R43). -/
theorem decode_eq_ok {w : Word} {i : Instr} :
    decode w = .ok i ↔
      (commandFields w).rsv = 0#24 ∧ commandOfOpcode (commandFields w).opc = some i := by
  simp only [decode, CommandFields.rsvZero, beq_iff_eq]
  split
  next hrsv => cases commandOfOpcode (commandFields w).opc <;> simp [hrsv]
  next hrsv => simp [hrsv]

/-- The decoder accepts a word as a command exactly when its fields are the command's. -/
theorem decode_eq_ok_iff_fields {w : Word} {i : Instr} :
    decode w = .ok i ↔ commandFields w = fieldsOf i := by
  rw [decode_eq_ok, commandOfOpcode_eq_some, fieldsOf, CommandFields.mk.injEq, and_comm]

/-- Settles O10: a word decodes to a command when it has the command's fields, and a word is determined by its
fields. -/
theorem decodeAcceptsExactlyTheTwoWords : Obligations.DecodeAcceptsExactlyTheTwoWords :=
  ⟨rfl, rfl, fun _ _ => decode_eq_ok_iff_fields.trans commandFields_eq_iff⟩

end Sys2Proof
end

section
/-! PROOFS. The laws of the frequency table (spec/41_frequency_analyzer.md, R52). -/

namespace Sys2Proof.Machine

open Sys2Proof (Byte)

/-- The entries are in strictly ascending symbol order, as their symbols are. -/
theorem entriesOf_sorted (d : List Byte) :
    (entriesOf d).Pairwise (fun e f => e.sym.toNat < f.sym.toNat) := by
  have h := symbolsOf_sorted d
  rwa [← entriesOf_syms, List.pairwise_map] at h

/-- The symbols of the table are distinct bytes of the input, so there are no more of them than bytes. -/
theorem symbolsOf_length_le_length (d : List Byte) : (symbolsOf d).length ≤ d.length :=
  ((symbolsOf_nodup d).subperm fun b => (mem_symbolsOf d b).1).length_le

/-- No more entries than input bytes, and no more than the 256 symbols. -/
theorem entriesOf_length_le (d : List Byte) : (entriesOf d).length ≤ min d.length 256 := by
  rw [entriesOf_length]
  exact le_min (symbolsOf_length_le_length d) (symbolsOf_length_le d)

/-- A frequency of the table is a count, so it is at most the input's length. -/
theorem freq_le_length {d : List Byte} {es : List Entry} (h : freqTable d = .ok es) {e : Entry}
    (he : e ∈ es) : e.freq ≤ d.length := by
  obtain ⟨hcount, -⟩ := (mem_freqTable h e).1 he
  rw [hcount]
  exact List.count_le_length

/-- Settles O38: the table has one entry per distinct input symbol, in symbol order, holding that symbol's
count. -/
theorem frequencyTableLaws : Obligations.FrequencyTableLaws := by
  intro d hpos hmax
  have htable : freqTable d = .ok (entriesOf d) := freqTable_entries (List.length_pos_iff.1 hpos)
  refine ⟨entriesOf d, htable, fun e he => ?range, entriesOf_sorted d, totalFreq_entriesOf d,
    List.length_pos_iff.2 (freqTable_ne_nil htable), entriesOf_length_le d⟩
  case range =>
    obtain ⟨-, hfreq⟩ := (mem_freqTable htable e).1 he
    have hle := freq_le_length htable he
    exact ⟨hfreq, hle, hle.trans hmax⟩

end Sys2Proof.Machine
end

section
/-! PROOFS. The code table: the single-symbol code, and the codes of a tree as its root-to-leaf paths, which no
other path extends and which split every infinite bit sequence (spec/43_code_table.md, R64, R65). -/

namespace Sys2Proof.Machine

open Sys2Proof (Byte Bits)

/-! ### The single-symbol code (R64) -/

/-- A symbol at the head of the table has the code beside it. -/
@[simp] theorem codeOf_cons_self (s : Byte) (c : Bits) (tab : CodeTable) : codeOf ((s, c) :: tab) s = c := by
  simp [codeOf]

/-- One entry gives its leaf. -/
theorem treeBuild_singleton (e : Entry) : treeBuild [e] = .ok (.leaf 0 e.sym e.freq) := rfl

/-- Settles O43: the tree of one entry is a leaf, and the code table and the decoder have a case of their own for
a leaf root. -/
theorem singleSymbolCode : Obligations.SingleSymbolCode := by
  refine fun s f u => ⟨treeBuild_singleton ⟨s, f⟩, rfl, rfl, rfl, fun n => ?_⟩
  rw [encodeBits, List.flatMap_replicate, codeGen, codeOf_cons_self, List.flatten_replicate_singleton]

/-! ### Code lengths (R65) -/

/-- A code has at least one bit, and is shorter than the number of symbols when there are two or more. -/
theorem codeGen_length_bounds (t : Tree) {p : Byte × Bits} (hp : p ∈ codeGen t) :
    1 ≤ p.2.length ∧ p.2.length ≤ max 1 (t.syms.length - 1) := by
  refine ⟨List.length_pos_iff.2 (codeGen_ne_nil t hp), ?_⟩
  cases t with
  | leaf i s w =>
    rw [codeGen, List.mem_singleton] at hp
    simp [hp]
  | node i l r w =>
    have hlt := walk_length_lt (.node i l r w) p hp
    omega

/-! ### Codes do not extend each other (R65) -/

/-- Neither of two table rows has a code that begins with the other's. -/
def PrefixIncomparable (p q : Byte × Bits) : Prop := ¬ p.2 <+: q.2 ∧ ¬ q.2 <+: p.2

/-- Codes that begin with different bits are incomparable. -/
theorem prefixIncomparable_of_head_ne {b b' : Bool} (h : b ≠ b') (s s' : Byte) (c c' : Bits) :
    PrefixIncomparable (s, b :: c) (s', b' :: c') := by
  simp [PrefixIncomparable, List.cons_prefix_cons, h, h.symm]

/-- The same bit in front of all codes keeps them incomparable. -/
theorem pairwise_prefixIncomparable_cons (b : Bool) {tab : CodeTable} (h : tab.Pairwise PrefixIncomparable) :
    (tab.map fun e => (e.1, b :: e.2)).Pairwise PrefixIncomparable :=
  List.pairwise_map.2 (h.imp fun hpq => by simpa [PrefixIncomparable] using hpq)

/-- Paths that part at a node go on with different bits. -/
theorem walk_pairwise (t : Tree) : (walk t []).Pairwise PrefixIncomparable := by
  induction t with
  | leaf i s w => exact List.pairwise_singleton ..
  | node i l r w ihl ihr =>
    rw [walk_node]
    refine List.pairwise_append.2
      ⟨pairwise_prefixIncomparable_cons false ihl, pairwise_prefixIncomparable_cons true ihr, fun p hp q hq => ?_⟩
    obtain ⟨e, -, rfl⟩ := List.mem_map.1 hp
    obtain ⟨e', -, rfl⟩ := List.mem_map.1 hq
    exact prefixIncomparable_of_head_ne Bool.false_ne_true ..

theorem codeGen_pairwise (t : Tree) : (codeGen t).Pairwise PrefixIncomparable := by
  cases t with
  | leaf i s w => exact List.pairwise_singleton ..
  | node i l r w => exact walk_pairwise (.node i l r w)

/-! ### The Kraft sum (R65) -/

/-- The Kraft sum of a code table: the sum of `2 ^ (-length)` over its codes. -/
def kraftSum (tab : CodeTable) : ℚ := (tab.map fun p => (1 / 2 : ℚ) ^ p.2.length).sum

theorem kraftSum_append (a b : CodeTable) : kraftSum (a ++ b) = kraftSum a + kraftSum b := by
  simp [kraftSum]

/-- One bit more in front of every code halves the sum. -/
theorem kraftSum_cons (b : Bool) (tab : CodeTable) :
    kraftSum (tab.map fun e => (e.1, b :: e.2)) = kraftSum tab * (1 / 2) := by
  simp only [kraftSum, List.map_map, Function.comp_def, List.length_cons, pow_succ, List.sum_map_mul_right]

/-- The paths of a tree fill the unit interval: each child of a node takes half of it. -/
theorem kraftSum_walk (t : Tree) : kraftSum (walk t []) = 1 := by
  induction t with
  | leaf i s w => simp [kraftSum, walk]
  | node i l r w ihl ihr =>
    rw [walk_node, kraftSum_append, kraftSum_cons, kraftSum_cons, ihl, ihr]
    norm_num

/-! ### One code per infinite bit sequence (R65) -/

/-- The infinite bit sequence starts with these bits. -/
def StartsWith (u : Nat → Bool) (c : Bits) : Prop := c = (List.range c.length).map u

/-- The infinite bit sequence without its first bit. -/
def seqTail (u : Nat → Bool) : Nat → Bool := fun n => u (n + 1)

theorem startsWith_nil (u : Nat → Bool) : StartsWith u [] := rfl

theorem startsWith_cons (u : Nat → Bool) (b : Bool) (c : Bits) :
    StartsWith u (b :: c) ↔ b = u 0 ∧ StartsWith (seqTail u) c := by
  simp only [StartsWith, List.length_cons, List.range_succ_eq_map, List.map_cons, List.map_map, List.cons.injEq]
  rfl

/-- The paths of a node that begin a sequence are those of the child its first bit picks, which begin the rest. -/
theorem mem_walk_node_startsWith {u : Nat → Bool} {i w : Nat} {l r : Tree} {p : Byte × Bits} :
    p ∈ walk (.node i l r w) [] ∧ StartsWith u p.2 ↔
      ∃ e, (e ∈ walk (if u 0 then r else l) [] ∧ StartsWith (seqTail u) e.2) ∧ (e.1, u 0 :: e.2) = p := by
  rw [walk_node, List.mem_append, List.mem_map, List.mem_map]
  constructor
  · rintro ⟨⟨e, he, rfl⟩ | ⟨e, he, rfl⟩, hu⟩
    all_goals
      obtain ⟨hb, htail⟩ := (startsWith_cons ..).1 hu
      exact ⟨e, by simp [← hb, he, htail], by rw [hb]⟩
  · rintro ⟨e, ⟨he, hu⟩, rfl⟩
    refine ⟨?_, (startsWith_cons ..).2 ⟨rfl, hu⟩⟩
    cases hb : u 0 with
    | false => exact .inl ⟨e, by simpa [hb] using he, rfl⟩
    | true => exact .inr ⟨e, by simpa [hb] using he, rfl⟩

/-- An infinite bit sequence picks one path of the tree. -/
theorem existsUnique_walk_startsWith (t : Tree) (u : Nat → Bool) :
    ∃! p, p ∈ walk t [] ∧ StartsWith u p.2 := by
  induction t generalizing u with
  | leaf i s w =>
    exact ⟨(s, []), ⟨List.mem_singleton_self _, startsWith_nil u⟩, fun q hq => List.mem_singleton.1 hq.1⟩
  | node i l r w ihl ihr =>
    have ih : ∃! e, e ∈ walk (if u 0 then r else l) [] ∧ StartsWith (seqTail u) e.2 := by
      split
      · exact ihr _
      · exact ihl _
    obtain ⟨e, he, huniq⟩ := ih
    refine ⟨(e.1, u 0 :: e.2), mem_walk_node_startsWith.2 ⟨e, he, rfl⟩, fun q hq => ?_⟩
    obtain ⟨e', he', rfl⟩ := mem_walk_node_startsWith.1 hq
    rw [huniq e' he']

/-- Settles O44: the table is read off the walk of the tree, whose paths are incomparable, have Kraft sum 1, and
split the infinite sequences; a single entry has the code 0. -/
theorem codesArePrefixFreeAndComplete : Obligations.CodesArePrefixFreeAndComplete := by
  intro es hne hmax
  obtain ⟨root, h⟩ := treeBuild_ok hne
  have hsyms : (codeGen root).map Prod.fst = root.syms := codeGen_syms root
  have hlen : ∀ p ∈ codeGen root, 1 ≤ p.2.length ∧ p.2.length ≤ max 1 (es.length - 1) := fun p hp => by
    simpa only [treeBuild_syms_length h] using codeGen_length_bounds root hp
  refine ⟨root, h, hsyms ▸ treeBuild_syms h, fun p hp => ?bits, codeGen_pairwise root, fun htwo => ?two,
    fun hone => ?one⟩
  case bits =>
    obtain ⟨hpos, hle⟩ := hlen p hp
    omega
  case two =>
    obtain ⟨i, l, r, w, rfl⟩ := treeBuild_node h htwo
    refine ⟨rfl, fun p hp => ?_, kraftSum_walk (.node i l r w), existsUnique_walk_startsWith (.node i l r w)⟩
    obtain ⟨-, hle⟩ := hlen p hp
    omega
  case one =>
    obtain ⟨e, rfl⟩ := List.length_eq_one_iff.1 hone
    rw [treeBuild_singleton] at h
    cases h
    have hcode : ∀ p ∈ codeGen (.leaf 0 e.sym e.freq), p.2 = [false] := fun p hp => by
      rw [List.mem_singleton.1 hp]
    refine ⟨hcode, fun u hu p hp hstart => ?_⟩
    have hfirst := (startsWith_cons u false []).1 (hcode p hp ▸ hstart)
    simp [hu] at hfirst

end Sys2Proof.Machine
end

section
/-! PROOFS. Pack and Unpack are inverse to each other (spec/44_bit_packer.md, R70): bytes are determined by their
bits, so a packing is known by its bits, and these are the unpacked ones followed by the padding. -/

namespace Sys2Proof.Machine

open Sys2Proof (Byte Bits)

/-- Grouping the bits of bytes into bytes gives the bytes back. -/
@[simp] theorem packBytes_flatMap_bitsOfByte (p : List Byte) :
    packBytes p.length (p.flatMap bitsOfByte) = p := by
  induction p with
  | nil => rfl
  | cons b p ih =>
    rw [List.flatMap_cons, List.length_cons, packBytes, List.take_left' (bitsOfByte_length b),
      List.drop_left' (bitsOfByte_length b), byteOfBits_bitsOfByte, ih]

theorem flatMap_bitsOfByte_injective : Function.Injective fun p : List Byte => p.flatMap bitsOfByte := by
  intro p q (h : p.flatMap bitsOfByte = q.flatMap bitsOfByte)
  have hlen : p.length = q.length := by
    have hbits := congrArg List.length h
    rw [flatMap_bits_length, flatMap_bits_length] at hbits
    omega
  rw [← packBytes_flatMap_bitsOfByte p, h, hlen, packBytes_flatMap_bitsOfByte]

/-- The packings of a bit-string are the bytes whose bits are the string and its padding (R67). -/
theorem pack_eq_iff {u : Bits} {p : List Byte} {n : Nat} :
    pack u = (p, n) ↔ padCount u.length = n ∧ p.flatMap bitsOfByte = u ++ List.replicate n false := by
  rw [Prod.ext_iff, pack_pad, ← flatMap_bitsOfByte_injective.eq_iff, pack_bits, and_comm]
  refine and_congr_right fun hn => ?_
  rw [hn, eq_comm]

/-- When the unpacker answers, and what (R69). -/
theorem unpack_eq_ok {p : List Byte} {n : Nat} {u : Bits} :
    unpack p n = .ok u ↔
      n ≤ 7 ∧ n ≤ 8 * p.length ∧ (p.flatMap bitsOfByte).take (8 * p.length - n) = u := by
  rw [unpack]
  split
  next h7 => simp [h7]
  next h7 =>
    split
    next hlen => simp [hlen]
    next hlen => simp [Nat.le_of_not_lt h7, Nat.le_of_not_lt hlen]

/-- The padding count of the bits left of whole bytes is the number of bits taken off (R67, R69). -/
theorem padCount_sub {n len : Nat} (h7 : n ≤ 7) (hle : n ≤ 8 * len) : padCount (8 * len - n) = n := by
  unfold padCount
  omega

/-- A bit-string ends in `n` zeros after its first `m` bits exactly when each of its bits from `m` on is 0. -/
theorem eq_take_append_replicate_false_iff {b : Bits} {m n : Nat} (h : b.length = m + n) :
    b = b.take m ++ List.replicate n false ↔ ∀ k, m ≤ k → k < m + n → b[k]? = some false := by
  have hdrop : b = b.take m ++ List.replicate n false ↔ b.drop m = List.replicate n false := by
    conv_lhs => lhs; rw [← List.take_append_drop m b]
    rw [List.append_right_inj]
  rw [hdrop, List.eq_replicate_iff, List.forall_mem_iff_forall_getElem]
  simp only [List.length_drop, List.getElem_drop, h, Nat.add_sub_cancel_left, true_and]
  constructor
  · intro hz k hmk hk
    have hbit := hz (k - m) (by omega)
    rw [List.getElem?_eq_getElem (by omega), ← hbit]
    simp only [Nat.add_sub_cancel' hmk]
  · intro hz i hi
    have hbit := hz (m + i) (Nat.le_add_right m i) (by omega)
    rwa [List.getElem?_eq_getElem (by omega), Option.some_inj] at hbit

/-- Settles O47: unpacking a packing drops exactly its padding; packing an unpacked payload puts `n` zeros where
the dropped bits were, which gives the payload back when these were zeros. -/
theorem packAndUnpackAreInverse : Obligations.PackAndUnpackAreInverse := by
  refine ⟨unpack_pack, fun p n => ?_⟩
  simp only [unpack_eq_ok, and_assoc, exists_and_left, exists_eq_left']
  refine and_congr_right fun h7 => and_congr_right fun hle => ?_
  have hbits := flatMap_bits_length p
  have hpad : padCount ((p.flatMap bitsOfByte).take (8 * p.length - n)).length = n := by
    rw [List.length_take, hbits, min_eq_left (Nat.sub_le ..), padCount_sub h7 hle]
  have hsplit : 8 * p.length - n + n = 8 * p.length := Nat.sub_add_cancel hle
  rw [pack_eq_iff, and_iff_right hpad, eq_take_append_replicate_false_iff (hbits.trans hsplit.symm), hsplit]

end Sys2Proof.Machine
end

section
/-! PROOFS. Parse reads back what Frame wrote, the sizes of a container, and the round trip of the two commands
(spec/45_container_codec.md, R71 to R74, R80, R82). -/

namespace Sys2Proof.Machine

open Sys2Proof (Byte Bits)

/-! ### Parse of a frame (R71 to R74) -/

/-- The bytes of a frame before its payload. -/
def frameHead (n : Nat) (es : List Entry) : List Byte :=
  u32le n ++ [BitVec.ofNat 8 (es.length % 256)] ++ es.flatMap pairBytes

theorem frame_eq_frameHead (n : Nat) (es : List Entry) (p : List Byte) (pad : Nat) :
    frame n es p pad = frameHead n es ++ p ++ [BitVec.ofNat 8 pad] := rfl

theorem frameHead_length (n : Nat) (es : List Entry) : (frameHead n es).length = 5 + 5 * es.length := by
  have hframe := frame_length n es [] 0
  rw [frame_eq_frameHead, List.append_nil, List.length_append, List.length_singleton, List.length_nil] at hframe
  omega

/-- The stored length is read back (R71). -/
theorem le32At_frame {n : Nat} (hn : n < 2 ^ 32) (es : List Entry) (p : List Byte) (pad : Nat) :
    le32At (frame n es p pad) 0 = n :=
  le32_u32le n hn

/-- The stored NSYM byte means the number of entries, 256 included (R72). -/
theorem symbolCount_frame {es : List Entry} (hpos : 1 ≤ es.length) (hmax : es.length ≤ 256) (n : Nat)
    (p : List Byte) (pad : Nat) : symbolCount (byteAt (frame n es p pad) 4) = es.length := by
  have hbyte : byteAt (frame n es p pad) 4 = BitVec.ofNat 8 (es.length % 256) := rfl
  rw [hbyte, symbolCount, BitVec.toNat_ofNat]
  split <;> omega

/-- The stored pairs are the entries, in order (R71). -/
theorem storedPairs_frame {es : List Entry} (hpos : 1 ≤ es.length) (hmax : es.length ≤ 256)
    (hfreq : ∀ e ∈ es, e.freq < 2 ^ 32) (n : Nat) (p : List Byte) (pad : Nat) :
    storedPairs (frame n es p pad) = es := by
  rw [storedPairs_eq, symbolCount_frame hpos hmax]
  refine List.ext_getElem (by simp) fun k _ hk => ?_
  rw [List.getElem_map, List.getElem_range', Nat.zero_add, Nat.one_mul]
  exact entryAt_frame hk (hfreq _ (List.getElem_mem hk))

/-- The stored payload is the payload (R71). -/
theorem storedPayload_frame {es : List Entry} (hpos : 1 ≤ es.length) (hmax : es.length ≤ 256) (n : Nat)
    (p : List Byte) (pad : Nat) : storedPayload (frame n es p pad) = p := by
  have hlen : 6 + 5 * es.length + p.length - 6 - 5 * es.length = p.length := by omega
  rw [storedPayload, symbolCount_frame hpos hmax, frame_length, hlen, frame_eq_frameHead, List.append_assoc,
    List.drop_left' (frameHead_length n es), List.take_left' rfl]

/-- The last byte of a frame is the padding count (R71). -/
theorem storedPad_frame {pad : Nat} (hpad : pad < 256) (n : Nat) (es : List Entry) (p : List Byte) :
    storedPad (frame n es p pad) = pad := by
  have hlast : (frame n es p pad).length - 1 = (frameHead n es ++ p).length + 0 := by
    simp [frame_eq_frameHead]
  rw [storedPad, hlast, frame_eq_frameHead, byteAt_append]
  exact Nat.mod_eq_of_lt hpad

/-- An entry's frequency is at most the sum. -/
theorem freq_le_totalFreq {es : List Entry} {e : Entry} (he : e ∈ es) : e.freq ≤ totalFreq es :=
  List.le_sum_of_mem (List.mem_map_of_mem he)

/-- Parse recovers what Frame wrote: every check passes, and every part is read back (R74). -/
theorem parse_frame {n : Nat} {es : List Entry} {p : List Byte} {pad : Nat} (hpos : 1 ≤ es.length)
    (hmax : es.length ≤ 256) (hok : PairsOk es) (htotal : totalFreq es = n) (hn : n < 2 ^ 32)
    (hpad : pad < 256) :
    parse (frame n es p pad) = .ok { len := n, entries := es, payload := p, pad := pad } := by
  have hpairs : storedPairs (frame n es p pad) = es :=
    storedPairs_frame hpos hmax (fun e he => (freq_le_totalFreq he).trans_lt (htotal ▸ hn)) n p pad
  rw [parse_eq, symbolCount_frame hpos hmax, frame_length, hpairs, le32At_frame hn,
    storedPayload_frame hpos hmax, storedPad_frame hpad, if_neg (by omega), if_neg (by omega),
    if_neg (not_not.2 hok), if_pos htotal]

/-! ### The length of the encoded input (R66) -/

theorem encodeBits_length (c : CodeTable) (d : List Byte) :
    (encodeBits c d).length = (d.map fun b => (codeOf c b).length).sum :=
  List.length_flatMap

/-- The encoded length from the frequencies and the code lengths (R66). -/
theorem encodeBits_length_eq_totalBits (c : CodeTable) (d : List Byte) :
    (encodeBits c d).length = totalBits c (entriesOf d) := by
  rw [encodeBits_length, ← sum_by_symbol, totalBits, entriesOf, List.map_map]
  rfl

/-- Every byte of an input is a symbol of the tree of its entries (R63). -/
theorem mem_syms_of_mem {d : List Byte} {root : Tree} (hroot : treeBuild (entriesOf d) = .ok root) {b : Byte}
    (hb : b ∈ d) : b ∈ root.syms := by
  rw [(treeBuild_syms hroot).mem_iff, entriesOf_syms, mem_symbolsOf]
  exact hb

/-- An input that is not empty encodes to at least one bit. -/
theorem encodeBits_length_pos {d : List Byte} {root : Tree} (hroot : treeBuild (entriesOf d) = .ok root)
    (hne : d ≠ []) : 1 ≤ (encodeBits (codeGen root) d).length := by
  obtain ⟨b, hb⟩ := List.exists_mem_of_ne_nil d hne
  have hcode : (b, codeOf (codeGen root) b) ∈ codeGen root :=
    codeOf_mem (by rw [codeGen_syms]; exact mem_syms_of_mem hroot hb)
  rw [encodeBits_length]
  exact (codeGen_length_bounds root hcode).1.trans (List.le_sum_of_mem (List.mem_map_of_mem hb))

/-- An input that is not empty has at least one entry. -/
theorem entriesOf_length_pos {d : List Byte} (hne : d ≠ []) : 1 ≤ (entriesOf d).length :=
  List.length_pos_iff.2 (freqTable_ne_nil (freqTable_entries hne))

/-! ### What a successful command has done -/

/-- The code 0 is no error's (R83). -/
theorem CmdError.code_ne_zero (e : CmdError) : e.code ≠ 0#4 := by
  cases e <;> decide

/-- A completion with ERR = 0 wrote a result, and it fits OUT (R77). -/
theorem exec_err_zero {i : Instr} {s t : State} (h : exec i s = .next t) (herr : t.err = 0#4) :
    ∃ r, s.executed i = .ok r ∧ r.length ≤ s.outCap.toNat ∧ t = s.completeOk r := by
  rw [exec_eq] at h
  cases h
  rcases complete_cases s i with ⟨r, hr, hle, ht⟩ | ⟨e, -, -, ht⟩
  · exact ⟨r, hr, hle, ht⟩
  · rw [ht] at herr
    exact absurd herr e.code_ne_zero

/-- A result of COMPRESS is the container of an input that is not empty (R78). -/
theorem compressResult_ok {s : State} {r : List Byte} (h : s.compressResult = .ok r) :
    s.input ≠ [] ∧ containerOf s.input = .ok r := by
  rcases compressResult_cases s with ⟨-, hres⟩ | ⟨-, -, hres⟩ | ⟨-, hlen, c, hc, hres⟩
  · cases h.symm.trans hres
  · cases h.symm.trans hres
  · rw [h] at hres
    split at hres <;> cases hres
    refine ⟨fun hnil => hlen ?_, hc⟩
    rw [← s.input_length, hnil, List.length_nil]

/-- The container of an input under a tree of its entries (R78). -/
def containerUnder (root : Tree) (d : List Byte) : List Byte :=
  frame d.length (entriesOf d) (pack (encodeBits (codeGen root) d)).1 (pack (encodeBits (codeGen root) d)).2

/-- A COMPRESS with ERR = 0 had an input, and wrote its container, which fits OUT (R78). -/
theorem exec_compress_err_zero {s t : State} (h : exec .compress s = .next t) (herr : t.err = 0#4) :
    s.input ≠ [] ∧ ∃ root, treeBuild (entriesOf s.input) = .ok root ∧
      (containerUnder root s.input).length ≤ s.outCap.toNat ∧ t = s.completeOk (containerUnder root s.input) := by
  obtain ⟨r, hr, hle, rfl⟩ := exec_err_zero h herr
  obtain ⟨hne, hcontainer⟩ := compressResult_ok hr
  obtain ⟨root, hroot⟩ := treeBuild_ok (List.length_pos_iff.1 (entriesOf_length_pos hne))
  cases hcontainer.symm.trans (containerOf_eq hne hroot)
  exact ⟨hne, root, hroot, hle, rfl⟩

/-! ### The sizes of results (R82) -/

/-- The sizes of a container: 6 + 5N + ceil(T/8), at least 12, and 8B less the padding byte is T. -/
theorem containerUnder_sizes {d : List Byte} {root : Tree} (hne : d ≠ [])
    (hroot : treeBuild (entriesOf d) = .ok root) :
    (containerUnder root d).length =
        6 + 5 * (entriesOf d).length + (totalBits (codeGen root) (entriesOf d) + 7) / 8 ∧
      12 ≤ (containerUnder root d).length ∧
      storedPad (containerUnder root d) = (8 - totalBits (codeGen root) (entriesOf d) % 8) % 8 ∧
      8 * ((containerUnder root d).length - 6 - 5 * (entriesOf d).length) - storedPad (containerUnder root d) =
        totalBits (codeGen root) (entriesOf d) := by
  have hN := entriesOf_length_pos hne
  have hT := encodeBits_length_pos hroot hne
  have hlen : (containerUnder root d).length = 6 + 5 * (entriesOf d).length +
      ((encodeBits (codeGen root) d).length + 7) / 8 := by rw [containerUnder, frame_length, pack_length]
  have hpad : storedPad (containerUnder root d) = (8 - (encodeBits (codeGen root) d).length % 8) % 8 :=
    storedPad_frame ((padCount_lt _).trans (by decide)) ..
  rw [encodeBits_length_eq_totalBits] at hT hlen hpad
  rw [hlen, hpad]
  exact ⟨rfl, by omega, rfl, by omega⟩

/-- Settles O34: a completion shows its result's length and bytes, so the sizes are those of the container that
COMPRESS wrote and of the bytes that DECOMPRESS decoded. -/
theorem sizesOfResults : Obligations.SizesOfResults := by
  refine ⟨fun s t h herr => ?compress, fun s t h herr => ?decompress⟩
  case compress =>
    obtain ⟨hne, root, hroot, hle, rfl⟩ := exec_compress_err_zero h herr
    obtain ⟨hlen, hbyte, -⟩ := s.completeOk_shows hle
    obtain ⟨hsize, hmin, hpad, hbits⟩ := containerUnder_sizes hne hroot
    have hlast : ((s.completeOk (containerUnder root s.input)).outByte
        ((containerUnder root s.input).length - 1)).toNat = storedPad (containerUnder root s.input) := by
      rw [hbyte _ (by omega), storedPad, byteAt, List.getD_eq_getElem]
    refine ⟨root, hroot, ?_⟩
    rw [hlen, hlast]
    exact ⟨hsize, hmin, hpad, hbits⟩
  case decompress =>
    obtain ⟨r, hr, hle, rfl⟩ := exec_err_zero h herr
    obtain ⟨-, p, u, root, hparse, -, -, -, -, hlen⟩ := decompressResult_ok hr
    obtain ⟨-, -, -, -, hstored, -⟩ := parse_ok hparse
    rw [(s.completeOk_shows hle).1, hlen, hstored]

/-! ### The round trip (R80) -/

/-- The codec's round trip: the container parses to what was framed, its payload unpacks to the encoded bits,
and these decode to the input under the tree of the same entries. -/
theorem decompressBytes_containerUnder {d : List Byte} {root : Tree} {outCap : Nat} (hne : d ≠ [])
    (hlen : d.length < 2 ^ 32) (hcap : d.length ≤ outCap) (hroot : treeBuild (entriesOf d) = .ok root) :
    decompressBytes outCap (containerUnder root d) = .ok d := by
  have hmax : (entriesOf d).length ≤ 256 := entriesOf_length d ▸ symbolsOf_length_le d
  have hpad : padCount (encodeBits (codeGen root) d).length < 256 := (padCount_lt _).trans (by decide)
  have hparse := parse_frame (p := (pack (encodeBits (codeGen root) d)).1) (entriesOf_length_pos hne) hmax
    (entriesOf_pairsOk d) (totalFreq_entriesOf d) hlen hpad
  have hdecode : decodeBits root d.length (encodeBits (codeGen root) d) = .ok d := by
    simpa using decodeBits_encodeBits root d (fun b hb => mem_syms_of_mem hroot hb) []
  simp only [decompressBytes, containerUnder, pack_pad, hparse, if_neg hcap.not_gt, originalOf]
  simp only [← pack_pad, unpack_pack, hroot, hdecode]

/-- The input of a command is what IN holds, byte by byte. -/
theorem input_eq_of_inByte {u : State} {xs : List Byte} (hlen : u.inLen.toNat = xs.length)
    (hbyte : ∀ k (hk : k < xs.length), u.inByte k = xs[k]) : u.input = xs := by
  refine List.ext_getElem (u.input_length.trans hlen) fun k _ hk => ?_
  simpa [State.input] using hbyte k hk

/-- Settles O37: the buffers carry the container over, and the codec's round trip decodes it. -/
theorem roundTrip : Obligations.RoundTrip := by
  intro s t h herr u hlen hbytes hin hout
  obtain ⟨hne, root, hroot, hle, rfl⟩ := exec_compress_err_zero h herr
  obtain ⟨hclen, hcbyte, -⟩ := s.completeOk_shows hle
  have hinput : u.input = containerUnder root s.input :=
    input_eq_of_inByte (by rw [hlen, hclen]) fun k hk => (hbytes k (hclen ▸ hk)).trans (hcbyte k hk)
  have hfits : s.input.length ≤ u.outCap.toNat := s.input_length ▸ hout
  have hresult : u.decompressResult = .ok s.input := by
    rw [State.decompressResult, if_neg (by rw [State.inCapacity, State.inputLength, hlen]; omega), hinput]
    exact decompressBytes_containerUnder hne (s.input_length ▸ s.inLen.isLt) hfits hroot
  refine ⟨u.completeOk s.input, ?_, rfl, ?_, fun k hk => ?_⟩
  · rw [exec_eq, State.executed, hresult, State.complete]
  · rw [State.completeOk_outLen, s.input_length, BitVec.ofNat_toNat, BitVec.setWidth_eq]
  · rw [(u.completeOk_shows hfits).2.1 k (s.input_length ▸ hk)]
    simp [State.input]

end Sys2Proof.Machine
end

section
/-! PROOFS. The start of a command by a CMD write, and that a completion's outcome is a function of the command
word and the operands (spec/45_container_codec.md, R76, R81). -/

namespace Sys2Proof.Machine

open Sys2Proof (Byte Word Instr decode)

/-! ### The CMD write (R76) -/

/-- A CMD write is the register operation `writeCmd`, answered OKAY (R16). -/
theorem portWrite_cmd (s : State) (w : Word) : s.portWrite 0x14#32 (.word w) = (.write .okay, s.writeCmd w) :=
  portWrite_reg s w (off := 0x14) (by decide) (by decide)

/-- STATUS reads 1 after a start: BUSY, with DONE and ERR cleared (R15, R76). -/
theorem start_status (s : State) (w : Word) : (s.start w).readReg .status = 1#32 :=
  (State.statusWord_clear rfl rfl).trans rfl

/-- A start leaves the input side as it was (R76). -/
theorem start_sameInputSide (s : State) (w : Word) : s.SameInputSide (s.start w) :=
  ⟨rfl, rfl, rfl, rfl, fun _ => rfl, rfl, rfl⟩

/-- Settles O11: in IDLE the write is the start of the command; in BUSY it is nothing. -/
theorem cmdWriteStartsCommand : Obligations.CmdWriteStartsCommand := by
  refine fun s w => ⟨fun hidle => ⟨s.start w, ?_, rfl, start_status s w, rfl, rfl, rfl, rfl,
    start_sameInputSide s w, fun _ => rfl⟩, fun hbusy => ?_⟩
  · rw [portWrite_cmd, State.writeCmd, hidle, if_neg Bool.false_ne_true]
  · rw [portWrite_cmd, State.writeCmd, if_pos hbusy]

/-! ### The outcome depends on the operands alone (R81) -/

/-- The same operands give the same input. -/
theorem State.SameOperands.input_eq {s u : State} (h : s.SameOperands u) : u.input = s.input := by
  obtain ⟨-, -, hlen, hbytes⟩ := h
  rw [State.input, State.input, State.inputLength, State.inputLength, hlen]
  exact List.map_congr_left fun k hk => hbytes k (List.mem_range.1 hk)

/-- The same operands give the same result of Execute. -/
theorem State.SameOperands.executed_eq {s u : State} (h : s.SameOperands u) (i : Instr) :
    u.executed i = s.executed i := by
  have hinput := h.input_eq
  obtain ⟨hin, hout, hlen, -⟩ := h
  have hinCap : u.inCapacity = s.inCapacity := congrArg BitVec.toNat hin
  have houtCap : u.outCapacity = s.outCapacity := congrArg BitVec.toNat hout
  have hlength : u.inputLength = s.inputLength := congrArg BitVec.toNat hlen
  cases i with
  | compress => rw [State.executed, State.compressResult, hinput, hinCap, houtCap, hlength]; rfl
  | decompress => rw [State.executed, State.decompressResult, hinput, hinCap, houtCap, hlength]; rfl

/-- What a completion shows is a function of the result it completes with (R77). -/
theorem complete_sameOutcome (s u : State) (r : Except CmdError (List Byte)) :
    (s.complete r).SameOutcome (u.complete r) := by
  cases r with
  | error e => exact ⟨rfl, rfl, fun k hk => absurd hk (Nat.not_lt_zero k)⟩
  | ok c =>
    refine ⟨rfl, rfl, fun k hk => ?_⟩
    have hk' : k < c.length := by
      rw [State.complete, State.completeOk_outLen, BitVec.toNat_ofNat] at hk
      exact hk.trans_le (Nat.mod_le _ _)
    simp only [State.complete, State.completeOk_outByte, List.getElem?_eq_getElem hk', Option.getD_some]

/-- What the completion step of the word `w` completes with: an illegal word raises ILLEGAL_COMMAND (R43, R44). -/
def State.executedWord (s : State) (w : Word) : Except CmdError (List Byte) :=
  match decode w with
  | .ok i => s.executed i
  | .error _ => .error .illegalCommand

/-- A due step is the completion with what its word executes to. -/
theorem step_of_due {s : State} {w : Word} (h : s.dueCommand = some w) :
    step s = .next (s.complete (s.executedWord w)) := by
  rw [step, h, State.executedWord]
  dsimp only
  cases decode w with
  | ok i => exact exec_eq i s
  | error e => rfl

/-- Settles O14: the same operands give the same result of Execute, and what a completion shows is a function of
that. -/
theorem outcomeDependsOnOperandsAlone : Obligations.OutcomeDependsOnOperandsAlone := by
  intro w s u hs hu hsame
  have hexec : u.executedWord w = s.executedWord w := by
    rw [State.executedWord, State.executedWord]
    cases decode w with
    | ok i => exact hsame.executed_eq i
    | error e => rfl
  refine ⟨_, _, step_of_due hs, step_of_due hu, ?_⟩
  rw [hexec]
  exact complete_sameOutcome s u _

end Sys2Proof.Machine
end

section
/-! PROOFS. The invariant through every step, and what a step does when the reset event or a completion is next
(spec/70_reset_and_hazards.md, R92, R93; spec/30_encoding.md, R43, R44). -/

namespace Sys2Proof.Machine

open Sys2Proof (Byte Word Instr decode encode)

/-! ### The invariant -/

/-- A completion of either command keeps the invariant: its result fits OUT, and its error is one that appears. -/
theorem inv_complete {s : State} (h : s.Inv) (i : Instr) : (s.complete (s.executed i)).Inv := by
  rcases complete_cases s i with ⟨r, -, hle, hc⟩ | ⟨e, -, hne, hc⟩ <;> rw [hc]
  · exact inv_completeOk h hle
  · exact inv_completeError h hne

/-- A host's action keeps the invariant. -/
theorem inv_act {s : State} (h : s.Inv) : s.act.Inv := by
  rcases act_effect s with ⟨-, hact⟩ | ⟨rest, -, hact⟩ | ⟨t, rest, u, a, -, he, hact⟩ |
    ⟨addr, m, v, rest, u, b, l, -, he, hact⟩ <;> rw [hact]
  · exact h
  · exact inv_resetEvent (inv_setHost h rest)
  · exact inv_answer (inv_effect (inv_setHost h rest) he) a
  · exact inv_setHost (inv_answer (inv_effect h he) b) l

/-- Settles O4: a step is a completion or a host turn, and each named update keeps the invariant. -/
theorem stepKeepsInvariant : Obligations.StepKeepsInvariant := by
  intro s t hinv h
  rcases step_cases h with ⟨w, i, -, -, rfl⟩ | ⟨w, e, -, -, rfl⟩ | ⟨-, rfl⟩
  · exact inv_complete hinv i
  · exact inv_completeError hinv (by decide)
  · exact inv_act (inv_tick hinv)

/-- Settles O3: the capacities are in range by their type, and reset clears everything else. -/
theorem resetStateMeetsInvariant : Obligations.ResetStateMeetsInvariant where
  caps := reset_capsOk
  inMem_wf := rfl
  inMem_inside := fun _ hc => absurd hc List.not_mem_nil
  outMem_wf := rfl
  outMem_inside := fun _ hc => absurd hc List.not_mem_nil
  err_code := by decide
  outLen_le := Nat.zero_le _
  err_outLen := fun _ => rfl
  busy_clear := nofun
  idle_wait := fun _ => rfl
  draws_past := by decide

/-! ### Reset (R92, R93) -/

/-- Settles O1: every register reads its reset value, IN and OUT list nothing and have the draws 0 and 1, and
no completion is due. -/
theorem resetLeavesResetValues : Obligations.ResetLeavesResetValues :=
  ⟨⟨rfl, rfl, rfl, rfl, rfl, rfl, rfl, rfl, rfl, rfl, rfl, 0, 1, by decide, fun _ => ⟨rfl, rfl⟩⟩, rfl⟩

/-- The reset event leaves the reset state, under the parameters the state has. -/
theorem resetEvent_afterReset (s : State) : s.resetEvent.AfterReset s.inCap s.outCap :=
  ⟨rfl, rfl, rfl, State.ctrlWord_eq _, State.statusWord_clear rfl rfl, rfl, rfl, rfl, rfl, rfl, rfl,
    s.draws, s.draws + 1, by omega, fun _ => ⟨rfl, rfl⟩⟩

/-- When no completion is due, the step is a host turn. -/
theorem step_of_not_due {s : State} (h : s.dueCommand = none) : step s = .next s.tick.act := by
  rw [step, h]
  rfl

theorem act_of_reset {s : State} {rest : List HostAction} (h : s.host = .reset :: rest) :
    s.act = (s.setHost rest).resetEvent := by
  rw [State.act, h]

/-- Settles O2: the host turn is the reset event, whatever the phase is. -/
theorem resetEventSetsResetState : Obligations.ResetEventSetsResetState := by
  intro s rest hdue hhost
  have hact := act_of_reset (s := s.tick) hhost
  refine ⟨_, step_of_not_due hdue, ?_⟩
  rw [hact]
  exact ⟨resetEvent_afterReset (s.tick.setHost rest), rfl, rfl, Nat.le_refl _, Nat.le_succ _⟩

/-! ### The next state, and the completion of a word (R43, R44) -/

/-- Settles O5: a step is a completion when one is due, else a host turn. -/
theorem everyStepHasANextState : Obligations.EveryStepHasANextState := by
  intro s
  cases h : s.dueCommand with
  | none => exact ⟨_, step_of_not_due h⟩
  | some w => exact ⟨_, step_of_due h⟩

/-- Settles O7: both the due step and exec are the completion with what the command executes to. -/
theorem stepRunsDueCommand : Obligations.StepRunsDueCommand := by
  intro s w i hphase hwait hdecode
  rw [step_of_due (dueCommand_eq_some.2 ⟨hphase, hwait⟩), State.executedWord, hdecode, exec_eq]

/-- A word that is neither command's raises ILLEGAL_COMMAND, in every state (R44). -/
theorem executedWord_of_illegal (s : State) {w : Word} (h : ∀ i, w ≠ encode i) :
    s.executedWord w = .error .illegalCommand := by
  rw [State.executedWord]
  cases hw : decode w with
  | ok i => exact absurd ((decodeAcceptsExactlyTheTwoWords.2.2 w i).1 hw) (h i)
  | error e => rfl

/-- Settles O8: the due step is the error completion with ILLEGAL_COMMAND. -/
theorem illegalWordCompletesWithError : Obligations.IllegalWordCompletesWithError := by
  intro s w hphase hwait hne1 hne2
  have hillegal : ∀ i, w ≠ encode i
    | .compress => hne1
    | .decompress => hne2
  refine ⟨s.completeError .illegalCommand, ?_, rfl, rfl, rfl, rfl,
    ⟨rfl, rfl, rfl, rfl, fun _ => rfl, rfl, rfl⟩, fun _ => rfl⟩
  rw [step_of_due (dueCommand_eq_some.2 ⟨hphase, hwait⟩), executedWord_of_illegal s hillegal, State.complete]

/-- Settles O9: the decoder evaluated at eight words. -/
theorem writtenOutWordsDecode : Obligations.WrittenOutWordsDecode := by
  unfold Obligations.WrittenOutWordsDecode
  decide

end Sys2Proof.Machine
end

section
/-! PROOFS. The register file offset by offset, the writes to STATUS and IN_LEN, and that a read changes nothing
(spec/10_state.md, R11 to R19; spec/20_memory.md, R33). -/

namespace Sys2Proof.Machine

open Sys2Proof (Byte Word)

/-! ### Reads by offset (R11 to R19) -/

/-- What the register at an offset reads as, CTRL and STATUS bit by bit. -/
theorem readReg_regAt (s : State) (off : Nat) : s.readReg (regAt off) =
    (if off = 0x00 then 0x48554631#32
     else if off = 0x04 then s.inCap
     else if off = 0x08 then s.outCap
     else if off = 0x0C then (if s.ie then 1#32 else 0#32)
     else if off = 0x10 then
       BitVec.ofNat 32 ((if s.isBusy then 1 else 0) + (if s.done then 2 else 0) + 256 * s.err.toNat)
     else if off = 0x14 then 0#32
     else if off = 0x18 then s.inLen
     else if off = 0x1C then s.outLen
     else 0#32) := by
  rw [← State.ctrlWord_eq, ← State.statusWord_eq]
  simp only [regAt, apply_ite s.readReg]
  rfl

/-- Settles O15: a legal register access reads the register at its offset. -/
theorem registerReadsByOffset : Obligations.RegisterReadsByOffset := by
  intro s off hlt h4
  rw [portRead_reg s hlt h4, readReg_regAt]

/-! ### Writes to STATUS and IN_LEN (R15, R17) -/

/-- The write of `v` to STATUS acknowledges exactly in IDLE with bit 1 set, and does nothing else. -/
theorem writeStatus_eq (s : State) (v : Word) :
    s.writeStatus v = if s.isBusy = false ∧ v.getLsbD 1 = true then s.acknowledge else s := by
  rw [State.writeStatus]
  cases s.isBusy <;> simp

/-- Settles O18: a write at 0x10 is `writeStatus`, and an acknowledge clears DONE and so irq. -/
theorem statusWriteClearsDone : Obligations.StatusWriteClearsDone := by
  intro s v
  refine ⟨?_, fun hidle hbit => ?_⟩
  · rw [portWrite_reg s v (off := 0x10) (by decide) (by decide)]
    exact congrArg _ (writeStatus_eq s v)
  · rw [State.writeReg, writeStatus_eq, if_pos ⟨hidle, hbit⟩]
    rfl

/-- Settles O19: a write at 0x18 is `setInLen` in IDLE, and ignored in BUSY. -/
theorem inLenWriteReadsBack : Obligations.InLenWriteReadsBack := by
  intro s v
  refine ⟨fun hidle => ?_, fun hbusy =>
    portWrite_reg_busy hbusy v (off := 0x18) (by decide) (by decide) (by decide)⟩
  have hwrite : s.portWrite 0x18#32 (.word v) = (.write .okay, s.setInLen v) :=
    (portWrite_reg s v (off := 0x18) (by decide) (by decide)).trans (congrArg _ (writeInLen_idle hidle v))
  refine ⟨hwrite, ?_⟩
  rw [hwrite, portRead_reg _ (off := 0x18) (by decide) (by decide)]
  rfl

/-! ### Reads (R33) -/

/-- Settles O22: of the effects of a transaction a read has only none, and in BUSY a draw. -/
theorem readsChangeNoState : Obligations.ReadsChangeNoState := by
  intro s addr z
  have heffect : Effect s (.read addr z) (s.portRead addr z).2 := transact_effect s (.read addr z)
  generalize (s.portRead addr z).2 = u at heffect
  cases heffect with
  | nothing => exact ⟨s.draws, rfl, fun _ => rfl⟩
  | draw _ _ hbusy => exact ⟨s.draws + 1, rfl, fun hidle => absurd (hbusy.symm.trans hidle) (by decide)⟩

end Sys2Proof.Machine
end

section
/-! PROOFS. The address map read backwards, the accesses of the two windows in IDLE, and a host turn with a
transaction or a POLL (spec/20_memory.md, R28 to R31, R36; spec/30_encoding.md, R48). -/

namespace Sys2Proof.Machine

open Sys2Proof (Byte Word)

/-! ### Which accesses answer OKAY (R28 to R30) -/

theorem placeOf_eq_reg_iff (s : State) (addr : Word) (off : Nat) :
    s.placeOf addr = .reg off ↔ addr.toNat = off ∧ off < 0x1000 := by
  refine ⟨placeOf_reg, ?_⟩
  rintro ⟨rfl, hlt⟩
  exact if_pos hlt

theorem placeOf_eq_inWindow_iff (s : State) (addr : Word) (i : Nat) :
    s.placeOf addr = .inWindow i ↔ addr.toNat = inBase + i ∧ i < s.inCapacity := by
  have hin : inBase = 0x40000000 := rfl
  rw [State.placeOf]
  split
  · simp only [reduceCtorEq, false_iff]; omega
  · split
    · simp only [Place.inWindow.injEq]; omega
    · split <;> simp only [reduceCtorEq, false_iff] <;> omega

/-- The IN window ends at or below the OUT window's base, since IN_CAP is at most 2^30 (R3, R28). -/
theorem placeOf_eq_outWindow_iff {s : State} (hc : s.CapsOk) (addr : Word) (i : Nat) :
    s.placeOf addr = .outWindow i ↔ addr.toNat = outBase + i ∧ i < s.outCapacity := by
  have hcap : s.inCapacity ≤ 2 ^ 30 := hc.1.2
  have hin : inBase = 0x40000000 := rfl
  have hout : outBase = 0x80000000 := rfl
  rw [State.placeOf]
  split
  · simp only [reduceCtorEq, false_iff]; omega
  · split
    · simp only [reduceCtorEq, false_iff]; omega
    · split
      · simp only [Place.outWindow.injEq]; omega
      · simp only [reduceCtorEq, false_iff]; omega

/-- A window whose base is a multiple of 4 admits an access exactly when the address is past the base, aligned,
and the access ends inside (R30). -/
theorem exists_windowAccessOk_iff {a base : Nat} (hbase : base % 4 = 0) (cap : Nat) (z : Size) :
    (∃ i, (a = base + i ∧ i < cap) ∧ windowAccessOk cap i z = true) ↔
      base ≤ a ∧ a % sizeBytes z = 0 ∧ a - base + sizeBytes z ≤ cap := by
  have halign : ∀ i, (base + i) % sizeBytes z = i % sizeBytes z := fun i => by
    cases z <;> simp only [sizeBytes] <;> omega
  have hpos := sizeBytes_pos z
  simp only [windowAccessOk, Bool.and_eq_true, beq_iff_eq, decide_eq_true_eq]
  constructor
  · rintro ⟨i, ⟨rfl, -⟩, hi, hend⟩
    rw [halign, Nat.add_sub_cancel_left]
    exact ⟨Nat.le_add_right .., hi, hend⟩
  · rintro ⟨hle, hi, hend⟩
    obtain ⟨i, rfl⟩ := Nat.exists_eq_add_of_le hle
    rw [halign] at hi
    rw [Nat.add_sub_cancel_left] at hend
    exact ⟨i, ⟨rfl, by omega⟩, hi, hend⟩

/-- A register admits an access exactly when it has size 4 and an aligned address (R29). -/
theorem exists_regAccessOk_iff (a : Nat) (z : Size) :
    (∃ off, (a = off ∧ off < 0x1000) ∧ regAccessOk off z = true) ↔ a < 0x1000 ∧ z = .word ∧ a % 4 = 0 := by
  simp [regAccessOk]

/-- Settles O20: a place admits an access exactly where the address map puts the access inside its region. -/
theorem legalAccessesAnswerOkay : Obligations.LegalAccessesAnswerOkay := by
  intro s hc
  have hreg := fun (addr : Word) z => exists_regAccessOk_iff addr.toNat z
  have hin := fun (addr : Word) z =>
    exists_windowAccessOk_iff (a := addr.toNat) (base := inBase) (by decide) s.inCapacity z
  have hout := fun (addr : Word) z =>
    exists_windowAccessOk_iff (a := addr.toNat) (base := outBase) (by decide) s.outCapacity z
  refine ⟨fun addr z => ?_, fun addr d => ?_⟩
  · simp only [portRead_okay, placeOf_eq_reg_iff, placeOf_eq_inWindow_iff,
      placeOf_eq_outWindow_iff hc, hreg, hin, hout]
    rfl
  · simp only [portWrite_okay, placeOf_eq_reg_iff, placeOf_eq_inWindow_iff, hreg, hin]
    rfl

/-! ### Window accesses in IDLE (R30, R31) -/

theorem readWindow_idle {s : State} (h : s.isBusy = false) (z : Size) (f : Nat → Byte) (i : Nat) :
    s.readWindow z f i = (.read (datumOfBytes z (fun k => f (i + k))) .okay, s) := by
  rw [State.readWindow, h, if_neg Bool.false_ne_true]

theorem writeIn_idle {s : State} (h : s.isBusy = false) (i : Nat) (d : Datum) :
    s.writeIn i d = s.storeIn i (datumBytes d) := by
  rw [State.writeIn, h, if_neg Bool.false_ne_true]

/-- The bytes a host's write of a datum sets in IN. -/
theorem storeIn_datum_inside (s : State) (i : Nat) (d : Datum) {k : Nat} (hk : k < sizeBytes (datumSize d)) :
    (s.storeIn i (datumBytes d)).inByte (i + k) = (datumBytes d).getD k 0#8 := by
  rw [State.storeIn_inByte, datumBytes_length, if_pos ⟨Nat.le_add_right .., by omega⟩, Nat.add_sub_cancel_left]

/-- The bytes a host's write of a datum leaves in IN. -/
theorem storeIn_datum_outside (s : State) (i : Nat) (d : Datum) {j : Nat}
    (hj : j < i ∨ i + sizeBytes (datumSize d) ≤ j) : (s.storeIn i (datumBytes d)).inByte j = s.inByte j := by
  rw [State.storeIn_inByte, datumBytes_length, if_neg (by omega)]

/-- Settles O23: the write stores the datum's bytes, and a datum is the datum of its bytes. -/
theorem inWindowWriteThenRead : Obligations.InWindowWriteThenRead := by
  intro s i d hc hidle hlegal
  refine ⟨s.storeIn i (datumBytes d), ?write, rfl, fun k hk => ?inside,
    fun j hj => storeIn_datum_outside s i d hj, ?read⟩
  case write => rw [portWrite_in hc hlegal, writeIn_idle hidle]
  case inside => rw [storeIn_datum_inside s i d hk, datumBytes_getD d k hk]
  case read =>
    have hcaps : (s.storeIn i (datumBytes d)).CapsOk := hc
    have hidle' : (s.storeIn i (datumBytes d)).isBusy = false := hidle
    rw [portRead_in hcaps hlegal, readWindow_idle hidle',
      datumOfBytes_datumBytes d _ fun k hk => storeIn_datum_inside s i d hk]

/-- The halves and the bytes of the word of four bytes are its bits at their place (R31). -/
theorem word_of_bytes_parts (f : Nat → Byte) :
    (f 1 ++ f 0 : BitVec 16) = (f 3 ++ f 2 ++ f 1 ++ f 0 : BitVec 32).extractLsb' 0 16 ∧
    (f 3 ++ f 2 : BitVec 16) = (f 3 ++ f 2 ++ f 1 ++ f 0 : BitVec 32).extractLsb' 16 16 ∧
    ∀ k, k < 4 → f k = (f 3 ++ f 2 ++ f 1 ++ f 0 : BitVec 32).extractLsb' (8 * k) 8 := by
  have h0 := (f 0).isLt
  have h1 := (f 1).isLt
  have h2 := (f 2).isLt
  have h3 := (f 3).isLt
  have hword := toNat_word_of_bytes (f 0) (f 1) (f 2) (f 3)
  rw [le32] at hword
  refine ⟨?_, ?_, fun k hk => ?_⟩
  · apply BitVec.eq_of_toNat_eq
    rw [BitVec.extractLsb'_toNat, hword, toNat_append_byte, Nat.shiftRight_eq_div_pow]
    omega
  · apply BitVec.eq_of_toNat_eq
    rw [BitVec.extractLsb'_toNat, hword, toNat_append_byte, Nat.shiftRight_eq_div_pow]
    omega
  · apply BitVec.eq_of_toNat_eq
    rw [BitVec.extractLsb'_toNat, hword, Nat.shiftRight_eq_div_pow]
    interval_cases k <;> omega

/-- An aligned part of a legal word is legal (R30). -/
theorem legalAt_part {cap : Word} {i : Nat} (h : LegalAt cap i .word) {k : Nat} {z : Size}
    (halign : k % sizeBytes z = 0) (hinside : k + sizeBytes z ≤ 4) : LegalAt cap (i + k) z := by
  cases z <;> simp only [LegalAt, sizeBytes] at h halign hinside ⊢ <;> omega

/-- A legal word of a window is le32 of its bytes, and its halves and bytes are read as its bits at their place:
`read j z` is the read of size `z` at offset `j` of the window, `f` its bytes. -/
theorem word_read_parts {cap : Word} {read : Nat → Size → Answer × State} {s : State} {f : Nat → Byte}
    (hread : ∀ j z, LegalAt cap j z → read j z = (.read (datumOfBytes z (fun k => f (j + k))) .okay, s))
    {i : Nat} (hlegal : LegalAt cap i .word) :
    ∃ v : Word, read i .word = (.read (.word v) .okay, s) ∧
      v.toNat = le32 (f i) (f (i + 1)) (f (i + 2)) (f (i + 3)) ∧
      read i .half = (.read (.half (v.extractLsb' 0 16)) .okay, s) ∧
      read (i + 2) .half = (.read (.half (v.extractLsb' 16 16)) .okay, s) ∧
      ∀ k, k < 4 → read (i + k) .byte = (.read (.byte (v.extractLsb' (8 * k) 8)) .okay, s) := by
  obtain ⟨hlow, hhigh, hbytes⟩ := word_of_bytes_parts fun k => f (i + k)
  refine ⟨_, hread i .word hlegal, toNat_word_of_bytes .., ?_, ?_, fun k hk => ?_⟩
  · rw [hread i .half (legalAt_part hlegal (k := 0) rfl (by decide)), ← hlow]
    rfl
  · rw [hread (i + 2) .half (legalAt_part hlegal rfl (by decide)), ← hhigh]
    rfl
  · rw [hread (i + k) .byte (legalAt_part hlegal (Nat.mod_one k) hk), ← hbytes k hk]
    rfl

/-- Settles O24: a legal window read in IDLE gives the datum of the bytes in place, and one argument for both
windows gives the parts of a word. -/
theorem windowReadsAreLittleEndian : Obligations.WindowReadsAreLittleEndian := by
  intro s i hc hidle
  have hin : ∀ j z, LegalAt s.inCap j z → s.portRead (inAddr j) z =
      (.read (datumOfBytes z (fun k => s.inByte (j + k))) .okay, s) := fun j z h => by
    rw [portRead_in hc h, readWindow_idle hidle]
  have hout : ∀ j z, LegalAt s.outCap j z → s.portRead (outAddr j) z =
      (.read (datumOfBytes z (fun k => s.outByte (j + k))) .okay, s) := fun j z h => by
    rw [portRead_out hc h, readWindow_idle hidle]
  exact ⟨hin i, hout i, word_read_parts (read := fun j z => s.portRead (inAddr j) z) hin,
    word_read_parts (read := fun j z => s.portRead (outAddr j) z) hout⟩

/-! ### A host turn with a transaction or a POLL next (R34, R36, R48) -/

/-- Settles O26: the turn performs the transaction, which neither the delay left nor the host's list affects. -/
theorem transactionsInIssueOrder : Obligations.TransactionsInIssueOrder := by
  intro s tr rest hdue hhost
  obtain ⟨hanswer, m, hstate⟩ := transact_turn s (s.wait - 1) rest tr
  obtain ⟨-, -, -, hanswers, -⟩ := transact_frame s tr
  have hact : s.tick.act = State.perform { s with wait := s.wait - 1, host := rest } tr := by
    rw [State.act, State.tick_host, hhost]
    rfl
  refine ⟨_, step_of_not_due hdue, ?_⟩
  rw [hact, State.perform]
  dsimp only
  rw [hanswer, hstate, State.answer, hanswers]

/-- Settles O27: the turn performs the read, as for a transaction, and drops the POLL if the read ends it. -/
theorem pollRepeatsUntilItMatches : Obligations.PollRepeatsUntilItMatches := by
  intro s addr mask value rest hdue hhost
  obtain ⟨hanswer, m, hstate⟩ := transact_turn s (s.wait - 1) s.host (.read addr .word)
  obtain ⟨-, -, -, hanswers, -⟩ := transact_frame s (.read addr .word)
  have hturn : s.tick = { s with wait := s.wait - 1, host := s.host } := rfl
  refine ⟨_, step_of_not_due hdue, ?_⟩
  rw [State.act, State.tick_host, hhost]
  dsimp only
  rw [hturn, hanswer, hstate, hhost, State.answer, hanswers]
  by_cases h : answerWord (s.transact (.read addr .word)).1 &&& mask = value
  · simp only [pollEnds, h, beq_self_eq_true, if_true]
    rfl
  · simp only [pollEnds, h, beq_eq_false_iff_ne.2 h, if_false, Bool.false_eq_true]

end Sys2Proof.Machine
end

section
/-! PROOFS. What each host turn does to the flags, to OUT and to the input side, said once, and with it which
events change what (spec/10_state.md, R15, R22 to R24; spec/60_exceptions.md, R86; spec/70_reset_and_hazards.md). -/

namespace Sys2Proof.Machine

open Sys2Proof (Byte Word)

/-! ### What a state shows -/

/-- The flags, OUT_LEN, the phase with its captured word, and the bytes of OUT. -/
structure OutputSide where
  phase : Phase
  ie : Bool
  done : Bool
  err : BitVec 4
  outLen : Word
  outByte : Nat → Byte

/-- The flags and OUT of a state. -/
def State.outputSide (s : State) : OutputSide :=
  { phase := s.phase, ie := s.ie, done := s.done, err := s.err, outLen := s.outLen, outByte := s.outByte }

/-- IN_LEN and the bytes of IN. -/
def State.inputSide (s : State) : Word × (Nat → Byte) := (s.inLen, s.inByte)

theorem State.inputSide_eq_iff {s t : State} : t.inputSide = s.inputSide ↔
    t.inLen = s.inLen ∧ ∀ i, t.inByte i = s.inByte i := by
  simp only [State.inputSide, Prod.mk.injEq, funext_iff]

section
variable (s : State)

@[simp] theorem State.tick_outputSide : s.tick.outputSide = s.outputSide := rfl
@[simp] theorem State.setHost_outputSide (l : List HostAction) : (s.setHost l).outputSide = s.outputSide := rfl
@[simp] theorem State.answer_outputSide (a : Answer) : (s.answer a).outputSide = s.outputSide := rfl
@[simp] theorem State.afterDraw_outputSide : s.afterDraw.outputSide = s.outputSide := rfl
@[simp] theorem State.setInLen_outputSide (v : Word) : (s.setInLen v).outputSide = s.outputSide := rfl
@[simp] theorem State.storeIn_outputSide (i : Nat) (xs : List Byte) :
    (s.storeIn i xs).outputSide = s.outputSide := rfl
@[simp] theorem State.writeCtrl_outputSide (v : Word) :
    (s.writeCtrl v).outputSide = { s.outputSide with ie := v.getLsbD 0 } := rfl
@[simp] theorem State.acknowledge_outputSide :
    s.acknowledge.outputSide = { s.outputSide with done := false } := rfl
@[simp] theorem State.start_outputSide (w : Word) : (s.start w).outputSide =
    { s.outputSide with phase := .busy w, done := false, err := 0#4, outLen := 0#32 } := rfl
@[simp] theorem State.resetEvent_outputSide : s.resetEvent.outputSide =
    { phase := .idle, ie := false, done := false, err := 0#4, outLen := 0#32,
      outByte := Config.freeByte (s.draws + 1) } := rfl

@[simp] theorem State.tick_inputSide : s.tick.inputSide = s.inputSide := rfl
@[simp] theorem State.setHost_inputSide (l : List HostAction) : (s.setHost l).inputSide = s.inputSide := rfl
@[simp] theorem State.answer_inputSide (a : Answer) : (s.answer a).inputSide = s.inputSide := rfl
@[simp] theorem State.afterDraw_inputSide : s.afterDraw.inputSide = s.inputSide := rfl
@[simp] theorem State.writeCtrl_inputSide (v : Word) : (s.writeCtrl v).inputSide = s.inputSide := rfl

end

/-- BUSY is read off the phase (R22). -/
theorem State.isBusy_congr {s t : State} (h : t.phase = s.phase) : t.isBusy = s.isBusy := by
  rw [State.isBusy, State.isBusy, h]

theorem State.isBusy_eq_true {s : State} : s.isBusy = true ↔ ∃ w, s.phase = .busy w := by
  rw [State.isBusy]
  cases s.phase <;> simp

/-! ### The events of a host turn -/

/-- Everything a host turn can change of what a state shows: nothing; the input side alone, in IDLE; and what a
CTRL write, an acknowledging STATUS write, a CMD write or the reset event names. -/
inductive Turn (s t : State) : Prop where
  | quiet (output : t.outputSide = s.outputSide) (input : t.inputSide = s.inputSide)
      (delay : t.wait = s.wait - 1)
  | enable (v : Word) (rest : List HostAction) (next : s.host = .access (.write 0x0C#32 (.word v)) :: rest)
      (output : t.outputSide = { s.outputSide with ie := v.getLsbD 0 }) (input : t.inputSide = s.inputSide)
      (delay : t.wait = s.wait - 1)
  | input (idle : s.isBusy = false) (output : t.outputSide = s.outputSide)
  | acknowledge (v : Word) (rest : List HostAction)
      (next : s.host = .access (.write 0x10#32 (.word v)) :: rest) (bit : v.getLsbD 1 = true)
      (idle : s.isBusy = false) (output : t.outputSide = { s.outputSide with done := false })
  | start (w : Word) (rest : List HostAction) (next : s.host = .access (.write 0x14#32 (.word w)) :: rest)
      (idle : s.isBusy = false)
      (output : t.outputSide =
        { s.outputSide with phase := .busy w, done := false, err := 0#4, outLen := 0#32 })
  | reset (rest : List HostAction) (next : s.host = .reset :: rest)
      (output : t.outputSide =
        { phase := .idle, ie := false, done := false, err := 0#4, outLen := 0#32,
          outByte := Config.freeByte (s.draws + 1) })

/-- The turn with a transaction next has the event of the transaction's effect. -/
theorem turn_of_effect {s u : State} {tr : Transaction} {rest : List HostAction} (a : Answer)
    (hhost : s.host = .access tr :: rest) (he : Effect (s.tick.setHost rest) tr u) : Turn s (u.answer a) := by
  cases he with
  | nothing => exact .quiet (by simp) (by simp) rfl
  | draw => exact .quiet (by simp) (by simp) rfl
  | ctrl v => exact .enable v rest hhost (by simp) (by simp) rfl
  | start w hidle => exact .start w rest hhost hidle (by simp)
  | inLen v hidle => exact .input hidle (by simp)
  | ack v hidle hbit => exact .acknowledge v rest hhost hbit hidle (by simp)
  | store addr i d hidle => exact .input hidle (by simp)

/-- A host turn is one of its events. -/
theorem act_turn (s : State) : Turn s s.tick.act := by
  rcases act_effect s.tick with ⟨-, hact⟩ | ⟨rest, hhost, hact⟩ | ⟨tr, rest, u, a, hhost, he, hact⟩ |
    ⟨addr, m, v, rest, u, b, l, -, he, hact⟩ <;> rw [hact]
  · exact .quiet (by simp) (by simp) rfl
  · exact .reset rest hhost (by simp)
  · exact turn_of_effect a hhost he
  · cases he <;> exact .quiet (by simp) (by simp) rfl

/-- Everything a step can do to what a state shows: a completion, when one is due, else an event of a host
turn. -/
theorem step_events {s t : State} (h : step s = .next t) :
    (∃ w, s.dueCommand = some w ∧ t = s.complete (s.executedWord w)) ∨ (s.dueCommand = none ∧ Turn s t) := by
  cases hdue : s.dueCommand with
  | none =>
    cases (step_of_not_due hdue).symm.trans h
    exact .inr ⟨rfl, act_turn s⟩
  | some w =>
    cases (step_of_due hdue).symm.trans h
    exact .inl ⟨w, rfl, rfl⟩

/-- The frame of a completion (R77): the input side and the host's side stay, the phase is IDLE and DONE = 1. -/
theorem complete_frame (s : State) (r : Except CmdError (List Byte)) :
    s.SameInputSide (s.complete r) ∧ (s.complete r).phase = .idle ∧ (s.complete r).done = true := by
  cases r <;> exact ⟨⟨rfl, rfl, rfl, rfl, fun _ => rfl, rfl, rfl⟩, rfl, rfl⟩

/-- The completion of a due word leaves IDLE. -/
theorem isBusy_of_dueCommand {s : State} {w : Word} (h : s.dueCommand = some w) : s.isBusy = true :=
  State.isBusy_eq_true.2 ⟨w, (dueCommand_eq_some.1 h).1⟩

/-! ### Which events change what -/

/-- Settles O28: of the events of a step only a completion sets DONE, and an acknowledge, a start and reset clear
it. -/
theorem doneChangesOnlyByItsEvents : Obligations.DoneChangesOnlyByItsEvents := by
  intro s t h
  rcases step_events h with ⟨w, hdue, rfl⟩ | ⟨-, hturn⟩
  · obtain ⟨-, -, hdone⟩ := complete_frame s (s.executedWord w)
    exact ⟨fun _ _ => ⟨w, hdue⟩, fun _ hclear => absurd (hdone.symm.trans hclear) (by decide)⟩
  · cases hturn with
    | quiet output | enable _ _ _ output | input _ output =>
      have hdone : t.done = s.done := congrArg OutputSide.done output
      rw [hdone]
      exact ⟨fun h0 h1 => absurd (h0.symm.trans h1) (by decide), fun h1 h0 => absurd (h0.symm.trans h1) (by decide)⟩
    | acknowledge v rest next bit idle output =>
      have hdone : t.done = false := congrArg OutputSide.done output
      exact ⟨fun _ hset => absurd (hdone.symm.trans hset) (by decide),
        fun _ _ => .inr (.inl ⟨v, rest, next, bit, idle⟩)⟩
    | start w rest next idle output =>
      have hdone : t.done = false := congrArg OutputSide.done output
      exact ⟨fun _ hset => absurd (hdone.symm.trans hset) (by decide), fun _ _ => .inl ⟨w, rest, next, idle⟩⟩
    | reset rest next output =>
      have hdone : t.done = false := congrArg OutputSide.done output
      exact ⟨fun _ hset => absurd (hdone.symm.trans hset) (by decide), fun _ _ => .inr (.inr ⟨rest, next⟩)⟩

/-- Settles O51: of the events of a step only a start in IDLE enters BUSY, a completion and reset leave it, and
every other keeps the phase. -/
theorem busyChangesOnlyByItsEvents : Obligations.BusyChangesOnlyByItsEvents := by
  intro s t h
  rcases step_events h with ⟨w, hdue, rfl⟩ | ⟨hdue, hturn⟩
  · have hbusy := isBusy_of_dueCommand hdue
    obtain ⟨-, hphase, -⟩ := complete_frame s (s.executedWord w)
    have hidle : (s.complete (s.executedWord w)).isBusy = false := by rw [State.isBusy, hphase]
    simp only [hbusy, hidle]
    exact ⟨nofun, fun _ _ => .inl ⟨w, hdue⟩, nofun⟩
  · cases hturn with
    | quiet output | enable _ _ _ output | input _ output | acknowledge _ _ _ _ _ output =>
      have hphase : t.phase = s.phase := congrArg OutputSide.phase output
      rw [State.isBusy_congr hphase]
      exact ⟨fun h0 h1 => absurd (h0.symm.trans h1) (by decide), fun h1 h0 => absurd (h0.symm.trans h1) (by decide),
        fun _ _ => hphase⟩
    | start w rest next idle output =>
      have hphase : t.phase = .busy w := congrArg OutputSide.phase output
      simp only [idle]
      exact ⟨fun _ _ => ⟨w, rest, next, hphase⟩, nofun, nofun⟩
    | reset rest next output =>
      have hphase : t.phase = .idle := congrArg OutputSide.phase output
      have hidle : t.isBusy = false := by rw [State.isBusy, hphase]
      simp only [hidle]
      exact ⟨nofun, fun _ _ => .inr ⟨hdue, rest, next⟩, nofun⟩

/-- Settles O52: of the events of a host turn only a start and reset touch ERR and OUT_LEN, and both clear
them. -/
theorem errAndOutLenChangeOnlyByTheirEvents : Obligations.ErrAndOutLenChangeOnlyByTheirEvents := by
  intro s t h hchange
  rcases step_events h with ⟨w, hdue, -⟩ | ⟨hdue, hturn⟩
  · exact .inl ⟨w, hdue⟩
  · refine .inr ⟨hdue, ?_⟩
    cases hturn with
    | quiet output | enable _ _ _ output | input _ output | acknowledge _ _ _ _ _ output =>
      have herr : t.err = s.err := congrArg OutputSide.err output
      have hlen : t.outLen = s.outLen := congrArg OutputSide.outLen output
      rcases hchange with hne | hne
      · exact absurd herr hne
      · exact absurd hlen hne
    | start w rest next idle output =>
      exact ⟨congrArg OutputSide.err output, congrArg OutputSide.outLen output, .inl ⟨w, rest, next, idle⟩⟩
    | reset rest next output =>
      exact ⟨congrArg OutputSide.err output, congrArg OutputSide.outLen output, .inr ⟨rest, next⟩⟩

theorem State.irq_eq_true {s : State} : s.irq = true ↔ s.done = true ∧ s.ie = true := by
  rw [State.irq, Bool.and_eq_true]

/-- Settles O29: irq needs DONE, which only a completion sets, and IE, which only a CTRL write sets. -/
theorem irqRisesOnlyAtCompletionOrEnable : Obligations.IrqRisesOnlyAtCompletionOrEnable := by
  intro s t h hlow hhigh
  obtain ⟨hdone, hie⟩ := State.irq_eq_true.1 hhigh
  rcases step_events h with ⟨w, hdue, rfl⟩ | ⟨-, hturn⟩
  · obtain ⟨⟨-, -, hsame, -⟩, -⟩ := complete_frame s (s.executedWord w)
    exact .inl ⟨w, hdue, hsame.symm.trans hie⟩
  · cases hturn with
    | quiet output | input _ output =>
      have hdone' : t.done = s.done := congrArg OutputSide.done output
      have hie' : t.ie = s.ie := congrArg OutputSide.ie output
      have hirq : s.irq = true := State.irq_eq_true.2 ⟨hdone'.symm.trans hdone, hie'.symm.trans hie⟩
      exact absurd (hlow.symm.trans hirq) (by decide)
    | enable v rest next output =>
      have hdone' : t.done = s.done := congrArg OutputSide.done output
      have hie' : t.ie = v.getLsbD 0 := congrArg OutputSide.ie output
      exact .inr ⟨hdone'.symm.trans hdone, v, rest, next, hie'.symm.trans hie⟩
    | acknowledge _ _ _ _ _ output | start _ _ _ _ output | reset _ _ output =>
      have hclear : t.done = false := congrArg OutputSide.done output
      exact absurd (hclear.symm.trans hdone) (by decide)

/-- Settles O30: a completion keeps the input side, and in BUSY so does every event of a host turn but reset. -/
theorem inputFixedWhileBusy : Obligations.InputFixedWhileBusy := by
  intro s t hbusy h
  rcases step_events h with ⟨w, -, rfl⟩ | ⟨hdue, hturn⟩
  · obtain ⟨⟨-, -, -, hlen, hbyte, -⟩, -⟩ := complete_frame s (s.executedWord w)
    exact .inl ⟨hlen, hbyte⟩
  · cases hturn with
    | quiet _ input | enable _ _ _ _ input => exact .inl (State.inputSide_eq_iff.1 input)
    | input idle | acknowledge _ _ _ _ idle | start _ _ _ idle =>
      exact absurd (hbusy.symm.trans idle) (by decide)
    | reset rest next => exact .inr ⟨hdue, rest, next⟩

/-- Settles O31: no event of a host turn but reset touches OUT. -/
theorem outStableBetweenCompletions : Obligations.OutStableBetweenCompletions := by
  intro s t h hdue hreset
  rcases step_events h with ⟨w, hdue', -⟩ | ⟨-, hturn⟩
  · rw [hdue] at hdue'
    cases hdue'
  · cases hturn with
    | quiet output | enable _ _ _ output | input _ output | acknowledge _ _ _ _ _ output
    | start _ _ _ _ output => exact congrFun (congrArg OutputSide.outByte output)
    | reset rest next => exact absurd next (hreset rest)

end Sys2Proof.Machine
end

section
/-! PROOFS. The frame of a completion, and that a command completes after its delay with the outcome of its
operands (spec/45_container_codec.md, R77; spec/20_memory.md, R37; spec/70_reset_and_hazards.md, R98, R100). -/

namespace Sys2Proof.Machine

open Sys2Proof (Byte Word Instr)

/-! ### The completion (R77, R84) -/

/-- Settles O12: both forms of a completion have the frame; a result fits OUT, and an error leaves no byte of
OUT known. -/
theorem completionFrame : Obligations.CompletionFrame := by
  intro i s
  obtain ⟨hinput, hphase, hdone⟩ := complete_frame s (s.executed i)
  have hirq : (s.complete (s.executed i)).irq = s.ie := by
    obtain ⟨-, -, hie, -⟩ := hinput
    rw [State.irq, hdone, hie, Bool.true_and]
  refine ⟨_, exec_eq i s, hinput, hphase, hdone, hirq, ?_⟩
  rcases complete_cases s i with ⟨r, -, hle, hc⟩ | ⟨e, -, hne, hc⟩ <;> rw [hc]
  · obtain ⟨hlen, -, -⟩ := s.completeOk_shows hle
    rw [hlen]
    refine ⟨List.mem_cons_self .., fun herr => absurd rfl herr, hle, fun k hk => ?_⟩
    rw [State.completeOk_outByte, List.getElem?_eq_none hk, Option.getD_none]
  · exact ⟨errCodes_of_ne hne, fun _ => rfl, Nat.zero_le _, fun _ _ => rfl⟩

/-! ### The delay (R77, R100) -/

/-- A host's action only takes from what the host has still to do. -/
theorem act_host_subset (s : State) : s.act.host ⊆ s.host := by
  rcases act_cases s with ⟨-, hact⟩ | ⟨rest, hhost, hact⟩ | ⟨tr, rest, hhost, hact⟩ |
    ⟨addr, m, v, rest, l, hhost, hl, hact⟩ <;> rw [hact]
  · exact List.Subset.refl _
  · rw [hhost]
    exact List.subset_cons_self ..
  · obtain ⟨-, -, hkept, -⟩ := transact_frame (s.setHost rest) tr
    rw [State.answer_host, hkept, hhost]
    exact List.subset_cons_self ..
  · rcases hl with rfl | rfl
    · rw [hhost]
      exact List.subset_cons_self ..
    · exact List.Subset.refl _

/-- A command that runs, with no reset ahead: the phase is BUSY(w), and the host's list holds no reset. -/
def State.Running (s : State) (w : Word) : Prop := s.phase = .busy w ∧ HostAction.reset ∉ s.host

/-- Two states give a command the same operands, and hold the same bytes in all of IN. -/
def State.SameInput (s t : State) : Prop := s.SameCaps t ∧ t.inputSide = s.inputSide

theorem State.SameInput.trans {s t u : State} (h : s.SameInput t) (h' : t.SameInput u) : s.SameInput u :=
  ⟨⟨h'.1.1.trans h.1.1, h'.1.2.trans h.1.2⟩, h'.2.trans h.2⟩

/-- A turn of the delay takes one off it and leaves the command running on the same input. -/
theorem step_of_running {s : State} {w : Word} {n : Nat} (h : s.Running w) (hwait : s.wait = n + 1) :
    ∃ t, step s = .next t ∧ t.Running w ∧ t.wait = n ∧ s.SameInput t := by
  obtain ⟨hphase, hreset⟩ := h
  have hbusy : s.isBusy = true := State.isBusy_eq_true.2 ⟨w, hphase⟩
  have hdue : s.dueCommand = none := by
    cases hd : s.dueCommand with
    | none => rfl
    | some v =>
      obtain ⟨-, hzero⟩ := dueCommand_eq_some.1 hd
      omega
  have hstep := step_of_not_due hdue
  have hhost : HostAction.reset ∉ s.tick.act.host := fun hmem => hreset (act_host_subset s.tick hmem)
  have hkeeps : s.tick.act.phase = s.phase ∧ s.tick.act.wait = s.wait - 1 ∧
      s.tick.act.inputSide = s.inputSide := by
    cases act_turn s with
    | quiet output input delay | enable _ _ _ output input delay =>
      exact ⟨congrArg OutputSide.phase output, delay, input⟩
    | input idle | acknowledge _ _ _ _ idle | start _ _ _ idle =>
      exact absurd (hbusy.symm.trans idle) (by decide)
    | reset rest next => exact absurd (next ▸ List.mem_cons_self ..) hreset
  obtain ⟨hphase', hwait', hinput⟩ := hkeeps
  exact ⟨_, hstep, ⟨hphase'.trans hphase, hhost⟩, by omega, step_sameCaps hstep, hinput⟩

/-- A run that begins with a step goes on from the step's state. -/
theorem run_succ_of_step {s t : State} (h : step s = .next t) (n : Nat) :
    Sys2Proof.core.run (n + 1) s = Sys2Proof.core.run n t := by
  have hstep : Sys2Proof.core.step s = .next t := h
  simp only [Host.Core.run, hstep]

/-- The run through the delay ends in the completion step of a state with the same input. -/
theorem run_of_running {s : State} {w : Word} (h : s.Running w) :
    ∃ v, v.dueCommand = some w ∧ s.SameInput v ∧
      ∀ t, step v = .next t → Sys2Proof.core.run (s.wait + 1) s = .next t := by
  generalize hn : s.wait = n
  induction n generalizing s with
  | zero =>
    exact ⟨s, dueCommand_eq_some.2 ⟨h.1, hn⟩, ⟨⟨rfl, rfl⟩, rfl⟩, fun t ht => run_succ_of_step ht 0⟩
  | succ n ih =>
    obtain ⟨u, hstep, hrunning, hwait, hsame⟩ := step_of_running h hn
    obtain ⟨v, hdue, hsame', hrun⟩ := ih hrunning hwait
    exact ⟨v, hdue, hsame.trans hsame', fun t ht => (run_succ_of_step hstep (n + 1)).trans (hrun t ht)⟩

/-- Settles O13: the run passes the delay without touching the operands, and a completion's outcome depends on
these alone (O14). -/
theorem everyCommandCompletes : Obligations.EveryCommandCompletes := by
  intro s w hphase hreset
  obtain ⟨v, hdue, ⟨⟨hin, hout⟩, hinput⟩, hrun⟩ := run_of_running ⟨hphase, hreset⟩
  obtain ⟨hlen, hbyte⟩ := State.inputSide_eq_iff.1 hinput
  have hdue' : State.dueCommand { s with wait := 0 } = some w := dueCommand_eq_some.2 ⟨hphase, rfl⟩
  obtain ⟨u, t, hu, ht, hsame⟩ := outcomeDependsOnOperandsAlone w { s with wait := 0 } v hdue' hdue
    ⟨hin, hout, hlen, fun k _ => hbyte k⟩
  refine ⟨t, u, hrun t ht, hu, hsame, ?_⟩
  cases (step_of_due hdue).symm.trans ht
  obtain ⟨⟨-, -, -, hlen', hbyte', -⟩, hidle, hdone⟩ := complete_frame v (v.executedWord w)
  exact ⟨hidle, hdone, hlen'.trans hlen, fun i => (hbyte' i).trans (hbyte i)⟩

end Sys2Proof.Machine
end

section
/-! PROOFS. What COMPRESS and DECOMPRESS complete with, in every case (spec/45_container_codec.md, R74, R75, R78,
R79; spec/60_exceptions.md, R83, R85). -/

namespace Sys2Proof.Machine

open Sys2Proof (Byte Bits Instr)

theorem exec_of_ok {s : State} {i : Instr} {r : List Byte} (h : s.executed i = .ok r) :
    exec i s = .next (s.completeOk r) := by
  rw [exec_eq, h, State.complete]

theorem exec_of_error {s : State} {i : Instr} {e : CmdError} (h : s.executed i = .error e) :
    exec i s = .next (s.completeError e) := by
  rw [exec_eq, h, State.complete]

/-! ### COMPRESS (R78) -/

/-- COMPRESS of an input that is not empty and fits IN: its container, or OUTPUT_OVERFLOW. -/
theorem compressResult_of_tree {s : State} {root : Tree} (hpos : 1 ≤ s.inLen.toNat)
    (hle : s.inLen.toNat ≤ s.inCap.toNat) (hroot : treeBuild (entriesOf s.input) = .ok root) :
    s.compressResult =
      if s.outCap.toNat < containerSize (symbolsOf s.input).length (encodeBits (codeGen root) s.input).length
      then .error .outputOverflow else .ok (containerUnder root s.input) := by
  rcases compressResult_cases s with ⟨hlong, -⟩ | ⟨-, hzero, -⟩ | ⟨-, -, c, hc, hres⟩
  · omega
  · omega
  · have hne : s.input ≠ [] := List.length_pos_iff.1 (s.input_length ▸ hpos)
    cases hc.symm.trans (containerOf_eq hne hroot)
    rw [hres, container_length, containerUnder]

/-- The container field by field (R71 to R73). -/
theorem containerUnder_fields (root : Tree) (d : List Byte) : containerUnder root d =
    u32le d.length ++ [BitVec.ofNat 8 ((symbolsOf d).length % 256)] ++
      (symbolsOf d).flatMap (fun b => b :: u32le (d.count b)) ++
      (pack (encodeBits (codeGen root) d)).1 ++
      [BitVec.ofNat 8 (padCount (encodeBits (codeGen root) d).length)] := by
  rw [containerUnder, frame, entriesOf_length, entriesOf, List.flatMap_map]
  rfl

/-- Settles O32: the result is the container, whose fields the entries of the input give. -/
theorem compressWritesTheContainer : Obligations.CompressWritesTheContainer := by
  intro s root hpos hle hroot hfits
  have hres := compressResult_of_tree hpos hle hroot
  rw [if_neg hfits.not_gt] at hres
  have hsize : (containerUnder root s.input).length = containerSize (symbolsOf s.input).length
      (encodeBits (codeGen root) s.input).length := container_length s.input root
  obtain ⟨hlen, -, hresult⟩ := s.completeOk_shows (hsize ▸ hfits)
  refine ⟨_, exec_of_ok hres, rfl, rfl, rfl, hlen.trans hsize, ?_⟩
  rw [hresult, containerUnder_fields, s.input_length]

/-- Settles O33: each error comes from its own branch of Compress(). -/
theorem compressErrors : Obligations.CompressErrors := by
  intro s
  refine ⟨fun hlong => ⟨s.completeError .badLength, exec_of_error ?_, rfl, rfl⟩,
    fun hzero => ⟨s.completeError .emptyInput, exec_of_error ?_, rfl, rfl⟩,
    fun root hpos hle hroot hover => ⟨s.completeError .outputOverflow, exec_of_error ?_, rfl, rfl⟩⟩
  · rcases compressResult_cases s with ⟨-, hres⟩ | ⟨hle, -⟩ | ⟨hle, -⟩
    · exact hres
    · omega
    · omega
  · rcases compressResult_cases s with ⟨hlong, -⟩ | ⟨-, -, hres⟩ | ⟨-, hpos, -⟩
    · omega
    · exact hres
    · exact absurd hzero hpos
  · exact (compressResult_of_tree hpos hle hroot).trans (if_pos hover)

/-! ### DECOMPRESS (R79) -/

theorem storedPairs_ne_nil (c : List Byte) : storedPairs c ≠ [] := by
  obtain ⟨hpos, -⟩ := symbolCount_pos (byteAt c 4)
  refine List.length_pos_iff.1 ?_
  rw [storedPairs, List.length_map, List.length_range]
  exact hpos

/-- The unpacker on the stored payload and padding (R69). -/
theorem unpack_stored (c : List Byte) : unpack (storedPayload c) (storedPad c) =
    if 7 < storedPad c ∨ 8 * (storedPayload c).length < storedPad c then .error .invalidPadding
    else .ok (storedBits c) := by
  rw [unpack]
  split
  next h7 => rw [if_pos (.inl h7)]
  next h7 =>
    split
    next hlong => rw [if_pos (.inr hlong)]
    next hlong => rw [if_neg (not_or.2 ⟨h7, hlong⟩), storedBits]

/-- Decompress() as the chain of its checks in the order of R85, under the tree of the stored pairs. -/
theorem decompressResult_eq {s : State} {root : Tree} (hroot : treeBuild (storedPairs s.input) = .ok root) :
    s.decompressResult =
      if s.inCap.toNat < s.inLen.toNat then .error .badLength
      else if s.inLen.toNat < 5 then .error .malformedContainer
      else if s.inLen.toNat < 6 + 5 * symbolCount (byteAt s.input 4) then .error .malformedContainer
      else if ¬ PairsOk (storedPairs s.input) then .error .malformedContainer
      else if totalFreq (storedPairs s.input) ≠ le32At s.input 0 then .error .malformedContainer
      else if s.outCap.toNat < le32At s.input 0 then .error .outputOverflow
      else if 7 < storedPad s.input ∨ 8 * (storedPayload s.input).length < storedPad s.input then
        .error .invalidPadding
      else decodeBits root (le32At s.input 0) (storedBits s.input) := by
  rw [State.decompressResult, State.inCapacity, State.inputLength, State.outCapacity, decompressBytes, parse_eq,
    s.input_length]
  by_cases hcap : s.inCap.toNat < s.inLen.toNat
  · rw [if_pos hcap, if_pos hcap]
  by_cases hfive : s.inLen.toNat < 5
  · simp only [if_neg hcap, if_pos hfive]
  by_cases hfit : s.inLen.toNat < 6 + 5 * symbolCount (byteAt s.input 4)
  · simp only [if_neg hcap, if_neg hfive, if_pos hfit]
  by_cases hpairs : PairsOk (storedPairs s.input)
  · by_cases hsum : totalFreq (storedPairs s.input) = le32At s.input 0
    · simp only [if_neg hcap, if_neg hfive, if_neg hfit, if_neg (not_not.2 hpairs), if_pos hsum,
        if_neg (not_not.2 hsum), originalOf, unpack_stored]
      by_cases hpad : 7 < storedPad s.input ∨ 8 * (storedPayload s.input).length < storedPad s.input
      · simp only [if_pos hpad]
      · simp only [if_neg hpad, hroot]
    · simp only [if_neg hcap, if_neg hfive, if_neg hfit, if_neg (not_not.2 hpairs), if_neg hsum, if_pos hsum]
  · simp only [if_neg hcap, if_neg hfive, if_neg hfit, if_pos hpairs]

/-- Settles O35: every check passes, and what is decoded has the stored length, which fits OUT. -/
theorem decompressWritesTheOriginal : Obligations.DecompressWritesTheOriginal := by
  intro s root d hle h5 hpairsFit hpairs hsum hfits hpad7 hpad8 hroot hdecode
  have hres : s.executed .decompress = .ok d := by
    rw [State.executed, decompressResult_eq hroot, if_neg (by omega), if_neg (by omega), if_neg (by omega),
      if_neg (not_not.2 hpairs), if_neg (not_not.2 hsum), if_neg (by omega), if_neg (by omega), hdecode]
  have hlen : d.length = le32At s.input 0 := decodeBits_length hdecode
  obtain ⟨hshown, -, hresult⟩ := s.completeOk_shows (hlen ▸ hfits)
  exact ⟨_, exec_of_ok hres, rfl, rfl, rfl, hshown.trans hlen, hresult⟩

/-- Settles O36: the chain of checks, with the code of the error in each branch. -/
theorem decompressErrorPriority : Obligations.DecompressErrorPriority := by
  intro s
  obtain ⟨root, hroot⟩ := treeBuild_ok (storedPairs_ne_nil s.input)
  refine ⟨_, exec_eq .decompress s, ?_⟩
  rw [State.executed, decompressResult_eq hroot]
  split_ifs
  case neg =>
    refine ⟨root, hroot, ?_⟩
    cases hdecode : decodeBits root (le32At s.input 0) (storedBits s.input) with
    | ok d => exact .inl ⟨d, rfl, rfl⟩
    | error e =>
      cases decodeBits_error hdecode
      exact .inr ⟨nofun, rfl⟩
  all_goals rfl

end Sys2Proof.Machine
end

section
/-! PROOFS. Parse and Frame: what was framed is parsed, and what is parsed was framed (spec/45_container_codec.md,
R71 to R74). -/

namespace Sys2Proof.Machine

open Sys2Proof (Byte)

/-- Settles O49: `parse_frame`, for every table of 1 to 256 entries. -/
theorem parseRecoversFrame : Obligations.ParseRecoversFrame := by
  intro n es p pad hpos hmax hok htotal hn hpad
  exact parse_frame hpos hmax hok htotal hn hpad

/-- The five bytes from a pair's place on are the pair's (R71). -/
theorem drop_entryAt {c : List Byte} {k : Nat} (h : 10 + 5 * k ≤ c.length) :
    c.drop (5 + 5 * k) = pairBytes (entryAt c k) ++ c.drop (5 + 5 * (k + 1)) := by
  rw [drop_byteAt (by omega), show 5 + 5 * k + 1 = 6 + 5 * k by omega, drop_le32At (by omega),
    show 6 + 5 * k + 4 = 5 + 5 * (k + 1) by omega]
  rfl

/-- The bytes from pair `k` on are `n` pairs and what follows them. -/
theorem drop_entries {c : List Byte} {k n : Nat} (h : 5 + 5 * (k + n) ≤ c.length) :
    c.drop (5 + 5 * k) =
      ((List.range' k n).map (entryAt c)).flatMap pairBytes ++ c.drop (5 + 5 * (k + n)) := by
  induction n generalizing k with
  | zero => rfl
  | succ n ih =>
    rw [drop_entryAt (by omega), ih (k := k + 1) (by omega), List.range'_succ, List.map_cons, List.flatMap_cons,
      List.append_assoc, Nat.add_right_comm k 1 n, Nat.add_assoc k n 1]

/-- The NSYM byte of the count it means (R72). -/
theorem ofNat_symbolCount (b : Byte) : BitVec.ofNat 8 (symbolCount b % 256) = b := by
  have hlt := b.isLt
  apply BitVec.eq_of_toNat_eq
  rw [BitVec.toNat_ofNat, symbolCount]
  split <;> omega

/-- A container that its pairs fit into is the frame of what stands in it (R71, R72). -/
theorem frame_stored {c : List Byte} (h : 6 + 5 * symbolCount (byteAt c 4) ≤ c.length) :
    frame (le32At c 0) (storedPairs c) (storedPayload c) (storedPad c) = c := by
  generalize hn : symbolCount (byteAt c 4) = n at h
  have hlength : (storedPairs c).length = n := by rw [storedPairs, List.length_map, List.length_range, hn]
  have hnsym : BitVec.ofNat 8 (n % 256) = byteAt c 4 := hn ▸ ofNat_symbolCount _
  have hpad : BitVec.ofNat 8 (storedPad c) = byteAt c (c.length - 1) := by
    rw [storedPad, BitVec.ofNat_toNat, BitVec.setWidth_eq]
  have hhead : c = u32le (le32At c 0) ++ byteAt c 4 :: c.drop 5 := by
    rw [← drop_byteAt (i := 4) (by omega), ← drop_le32At (i := 0) (by omega), List.drop_zero]
  have hpairs : c.drop 5 = (storedPairs c).flatMap pairBytes ++ c.drop (5 + 5 * n) := by
    rw [storedPairs_eq, hn]
    simpa using drop_entries (c := c) (k := 0) (n := n) (by omega)
  have hlast : c.drop (5 + 5 * n) = storedPayload c ++ [byteAt c (c.length - 1)] := by
    have hend : (c.drop (5 + 5 * n)).drop (c.length - 6 - 5 * n) = [byteAt c (c.length - 1)] := by
      rw [List.drop_drop, show 5 + 5 * n + (c.length - 6 - 5 * n) = c.length - 1 by omega,
        drop_byteAt (by omega), List.drop_eq_nil_of_le (by omega)]
    rw [storedPayload, hn, ← hend, List.take_append_drop]
  rw [frame, hlength, hnsym, hpad, List.append_assoc, List.append_assoc, ← hlast, List.append_assoc, ← hpairs]
  simpa using hhead.symm

/-- Settles O50: Parse has made its checks, and returns what stands in the container. -/
theorem parseAcceptsOnlyContainers : Obligations.ParseAcceptsOnlyContainers := by
  intro c p h
  obtain ⟨hfits, -⟩ := parse_ok h
  obtain ⟨hpos, hmax⟩ := symbolCount_pos (byteAt c 4)
  rw [parse_eq, if_neg (by omega), if_neg (by omega)] at h
  split at h
  · cases h
  next hpairs =>
    split at h
    next hsum =>
      cases h
      have hlength : (storedPairs c).length = symbolCount (byteAt c 4) := by simp [storedPairs]
      exact ⟨(frame_stored hfits).symm, hlength ▸ hpos, hlength ▸ hmax, not_not.1 hpairs, hsum, le32_lt ..⟩
    next => cases h

end Sys2Proof.Machine
end

section
/-! PROOFS. The tree builder: what a removal and a merge take, and the shape and the weights of the tree
(spec/42_tree_builder.md, R54 to R60). -/

namespace Sys2Proof.Machine

open Sys2Proof (Byte Bits)

/-! ### Keys and removals (R55 to R57) -/

/-- The key order: weight first, index among equal weights (R55). -/
def Tree.KeyLt (a b : Tree) : Prop := a.weight < b.weight ∨ (a.weight = b.weight ∧ a.index < b.index)

theorem Tree.keyLt_iff {a b : Tree} : a.keyLt b = true ↔ a.KeyLt b := decide_eq_true_iff

theorem Tree.not_keyLt_trans {a b c : Tree} (hab : ¬ b.KeyLt a) (hbc : ¬ c.KeyLt b) : ¬ c.KeyLt a := by
  unfold Tree.KeyLt at *
  omega

theorem Tree.KeyLt.asymm {a b : Tree} (h : a.KeyLt b) : ¬ b.KeyLt a := by
  unfold Tree.KeyLt at *
  omega

/-- Of two nodes with different indices one has the smaller key. -/
theorem Tree.keyLt_of_not_keyLt {a b : Tree} (hne : a.index ≠ b.index) (h : ¬ b.KeyLt a) : a.KeyLt b := by
  unfold Tree.KeyLt at *
  omega

/-- No node that a removal leaves has a smaller key than the removed one. -/
theorem extractMin_least {q r : List Tree} {a : Tree} (h : extractMin q = some (a, r)) :
    ∀ m ∈ r, ¬ m.KeyLt a := by
  induction q generalizing a r with
  | nil => cases h
  | cons t ts ih =>
    rw [extractMin] at h
    split at h
    next =>
      cases h
      exact nofun
    next m rest hmin =>
      have hrest := ih hmin
      split at h
      next hlt =>
        cases h
        have htm : ¬ m.KeyLt t := (Tree.keyLt_iff.1 hlt).asymm
        intro x hx
        rcases List.mem_cons.1 ((extractMin_perm hmin).subset hx) with rfl | hx
        · exact htm
        · exact Tree.not_keyLt_trans htm (hrest x hx)
      next hlt =>
        cases h
        intro x hx
        rcases List.mem_cons.1 hx with rfl | hx
        · exact fun hx => hlt (Tree.keyLt_iff.2 hx)
        · exact hrest x hx

/-- Distinct indices make the removed node's key the one least key. -/
theorem extractMin_keyLt {q r : List Tree} {a : Tree} (hnodup : (q.map Tree.index).Nodup)
    (h : extractMin q = some (a, r)) : ∀ m ∈ r, a.KeyLt m := by
  have hindex : (a.index :: r.map Tree.index).Nodup := ((extractMin_perm h).map Tree.index).nodup_iff.1 hnodup
  obtain ⟨hne, -⟩ := List.nodup_cons.1 hindex
  intro m hm
  refine Tree.keyLt_of_not_keyLt (fun heq => hne ?_) (extractMin_least h m hm)
  exact heq ▸ List.mem_map_of_mem hm

/-- Settles O39: a removal takes a node with no smaller key beside it, and indices are distinct. -/
theorem removalTakesTheLeastKey : Obligations.RemovalTakesTheLeastKey := by
  intro q r a hnodup h
  exact ⟨extractMin_perm h, extractMin_keyLt hnodup h⟩

/-- Q with a node in it has a removal. -/
theorem exists_extractMin {q : List Tree} (h : q ≠ []) : ∃ a r, extractMin q = some (a, r) := by
  cases hq : extractMin q with
  | none => exact absurd ((extractMin_eq_none q).1 hq) h
  | some p => exact ⟨p.1, p.2, rfl⟩

/-- Settles O40: a merge is two removals, each of the least key. -/
theorem mergeTakesTheTwoLeastKeys : Obligations.MergeTakesTheTwoLeastKeys := by
  intro n q htwo hnodup
  obtain ⟨a, q1, hfirst⟩ := exists_extractMin (q := q) (by rintro rfl; simp at htwo)
  have hlen := extractMin_length hfirst
  obtain ⟨b, r, hsecond⟩ := exists_extractMin (q := q1) (by rintro rfl; simp at hlen; omega)
  have hperm := extractMin_perm hfirst
  have hnodup1 : (q1.map Tree.index).Nodup :=
    (List.nodup_cons.1 ((hperm.map Tree.index).nodup_iff.1 hnodup)).2
  have hperm1 := extractMin_perm hsecond
  refine ⟨a, b, r, hperm.trans (hperm1.cons a), ?_, ?_, extractMin_keyLt hnodup1 hsecond⟩
  · simp only [mergeStep, hfirst, hsecond, mergeNode]
  · exact extractMin_keyLt hnodup hfirst b (hperm1.symm.subset (List.mem_cons_self ..))

/-! ### The weights (R58) -/

/-- Settles O42: the tree's weights are sums at every node, and the root's is that of all leaves. -/
theorem treeWeights : Obligations.TreeWeights := by
  intro es root h
  obtain ⟨hok, hweight⟩ := treeBuild_wf h
  have hle := arena_weight_le hok
  refine ⟨hweight, fun n hn => ⟨hle n hn, fun hlt => ?_⟩, fun i l r w hn => ?_⟩
  · exact (hle n hn).trans_lt (hweight ▸ hlt)
  · obtain ⟨-, -, hchildren⟩ := arena_internal hok hn
    exact hchildren

/-! ### The arena (R54, R56, R60) -/

/-- The indices in the arena of Q are the first `n`, and its leaves are the entries, each under its place. -/
def ForestOf (es : List Entry) (n : Nat) (q : List Tree) : Prop :=
  ((q.flatMap Tree.arena).map Prod.fst).Perm (List.range n) ∧
    ∀ k s w, (k, ArenaNode.leaf s w) ∈ q.flatMap Tree.arena ↔ es[k]? = some { sym := s, freq := w }

theorem ForestOf.perm {es : List Entry} {n : Nat} {q q' : List Tree} (hp : q.Perm q') (h : ForestOf es n q) :
    ForestOf es n q' := by
  obtain ⟨hindex, hleaf⟩ := h
  have harena := hp.flatMap_right Tree.arena
  exact ⟨(harena.map Prod.fst).symm.trans hindex, fun k s w => harena.mem_iff.symm.trans (hleaf k s w)⟩

/-- The arena of Q after a merge: the internal node, and what was there before. -/
theorem arena_merge (n : Nat) (a b : Tree) (r : List Tree) :
    (mergeNode n a b :: r).flatMap Tree.arena =
      (n, .internal a.index b.index (a.weight + b.weight)) :: (a :: b :: r).flatMap Tree.arena := by
  simp [mergeNode, Tree.arena]

theorem ForestOf.merge {es : List Entry} {n : Nat} {a b : Tree} {r : List Tree}
    (h : ForestOf es n (a :: b :: r)) : ForestOf es (n + 1) (mergeNode n a b :: r) := by
  obtain ⟨hindex, hleaf⟩ := h
  rw [ForestOf, arena_merge]
  refine ⟨?_, fun k s w => ?_⟩
  · rw [List.map_cons, List.range_succ]
    exact (hindex.cons n).trans (List.perm_append_singleton n (List.range n)).symm
  · rw [← hleaf, List.mem_cons]
    simp

theorem arena_leavesFrom (es : List Entry) (k : Nat) : (leavesFrom k es).flatMap Tree.arena =
    (es.zipIdx k).map fun p => (p.2, ArenaNode.leaf p.1.sym p.1.freq) := by
  induction es generalizing k with
  | nil => rfl
  | cons e es ih => simp [leavesFrom, Tree.arena, ih, List.zipIdx_cons]

theorem forestOf_leavesFrom (es : List Entry) : ForestOf es es.length (leavesFrom 0 es) := by
  rw [ForestOf, arena_leavesFrom]
  refine ⟨?_, fun k s w => ?_⟩
  · rw [List.map_map]
    have hindex : (es.zipIdx 0).map Prod.snd = List.range es.length := by
      rw [List.zipIdx_map_snd, List.range_eq_range']
    exact hindex ▸ List.Perm.refl _
  · simp only [List.mem_map, Prod.mk.injEq, ArenaNode.leaf.injEq]
    constructor
    · rintro ⟨⟨e, i⟩, hmem, rfl, rfl, rfl⟩
      exact List.mem_zipIdx_iff_getElem?.1 hmem
    · intro hget
      exact ⟨(⟨s, w⟩, k), List.mem_zipIdx_iff_getElem?.2 hget, rfl, rfl, rfl⟩

/-- The arena of the tree: 2N - 1 indices, and the entries as leaves. -/
theorem treeBuild_forest {es : List Entry} {root : Tree} (h : treeBuild es = .ok root) :
    ForestOf es (es.length + (es.length - 1)) [root] :=
  treeBuild_inv (I := ForestOf es) h (fun _ _ _ hp hq => hq.perm hp) (fun _ _ _ _ hq => hq.merge)
    (forestOf_leavesFrom es)

/-- The root's index is the largest in the arena. -/
theorem arena_index_le {t : Tree} (h : Tree.Ok t) : ∀ n ∈ t.arena, n.1 ≤ t.index := by
  induction t with
  | leaf i s w => simp [Tree.arena, Tree.index]
  | node i l r w ihl ihr =>
    obtain ⟨hl, hr, -, hokl, hokr⟩ := h
    intro n hn
    rw [Tree.arena, List.mem_cons, List.mem_append] at hn
    rw [Tree.index]
    rcases hn with rfl | hn | hn
    · exact Nat.le_refl _
    · exact (ihl hokl n hn).trans hl.le
    · exact (ihr hokr n hn).trans hr.le

/-- Settles O41: the arena's indices and leaves are kept through the merges, the root has the largest index, and
a path is shorter than the number of leaves. -/
theorem treeStructure : Obligations.TreeStructure := by
  intro es hne
  have hpos := List.length_pos_iff.2 hne
  obtain ⟨root, h⟩ := treeBuild_ok hne
  obtain ⟨hok, -⟩ := treeBuild_wf h
  obtain ⟨hindex, hleaf⟩ := treeBuild_forest h
  rw [List.flatMap_singleton, show es.length + (es.length - 1) = 2 * es.length - 1 by omega] at hindex
  rw [List.flatMap_singleton] at hleaf
  refine ⟨root, h, ?rootIndex, hindex, hleaf, fun i l r w hn => ?children, fun htwo p hp => ?depth⟩
  case rootIndex =>
    have hlast : 2 * es.length - 2 ∈ root.arena.map Prod.fst :=
      hindex.mem_iff.2 (List.mem_range.2 (by omega))
    obtain ⟨n, hn, hfst⟩ := List.mem_map.1 hlast
    have hge := arena_index_le hok n hn
    obtain ⟨self, hself, -⟩ := arena_self root
    have hlt := List.mem_range.1 (hindex.mem_iff.1 (List.mem_map_of_mem hself))
    omega
  case children =>
    obtain ⟨hl, hr, -⟩ := arena_internal hok hn
    exact ⟨hl, hr⟩
  case depth =>
    have hlt := walk_length_lt root p hp
    rw [treeBuild_syms_length h] at hlt
    obtain ⟨i, l, r, w, rfl⟩ := treeBuild_node h htwo
    exact ⟨List.length_pos_iff.2 (codeGen_ne_nil (.node i l r w) hp), by omega⟩

end Sys2Proof.Machine
end

section
/-! PROOFS. Encoded bits: their length, their packing, and what decoding reads of them (spec/43_code_table.md,
R66; spec/44_bit_packer.md, R68; spec/45_container_codec.md, R75; spec/90_conflicts.md, C1). -/

namespace Sys2Proof.Machine

open Sys2Proof (Byte Bits)

/-! ### The encoded length (R66) -/

/-- Every symbol of the table has its code under the tree (R63). -/
theorem codeOf_mem_of_entries {es : List Entry} {root : Tree} (h : treeBuild es = .ok root) {b : Byte}
    (hb : b ∈ es.map Entry.sym) : (b, codeOf (codeGen root) b) ∈ codeGen root :=
  codeOf_mem (by rw [codeGen_syms]; exact (treeBuild_syms h).symm.subset hb)

/-- The code of an input byte has 1 to 255 bits (R65). -/
theorem codeOf_length_bounds {d : List Byte} {root : Tree} (hroot : treeBuild (entriesOf d) = .ok root) {b : Byte}
    (hb : b ∈ d) : 1 ≤ (codeOf (codeGen root) b).length ∧ (codeOf (codeGen root) b).length ≤ 255 := by
  have hcode : (b, codeOf (codeGen root) b) ∈ codeGen root :=
    codeOf_mem_of_entries hroot (by rwa [entriesOf_syms, mem_symbolsOf])
  obtain ⟨hpos, hle⟩ := codeGen_length_bounds root hcode
  rw [treeBuild_syms_length hroot, entriesOf_length] at hle
  have hmax := symbolsOf_length_le d
  exact ⟨hpos, hle.trans (by omega)⟩

/-- Settles O45: the encoded length is the sum of the code lengths of the input bytes, each 1 to 255. -/
theorem encodedLength : Obligations.EncodedLength := by
  intro d root hroot
  have hbounds : ∀ n ∈ d.map fun b => (codeOf (codeGen root) b).length, 1 ≤ n ∧ n ≤ 255 := fun n hn => by
    obtain ⟨b, hb, rfl⟩ := List.mem_map.1 hn
    exact codeOf_length_bounds hroot hb
  have hlower := List.length_le_sum_of_one_le _ fun n hn => (hbounds n hn).1
  have hupper := List.sum_le_card_nsmul _ 255 fun n hn => (hbounds n hn).2
  rw [← encodeBits_length, List.length_map] at hlower hupper
  exact ⟨encodeBits_length_eq_totalBits _ d, hlower, by rwa [smul_eq_mul, Nat.mul_comm] at hupper⟩

/-! ### The bits of a packing (R68) -/

/-- Bit `8j + k` of the bits of bytes is bit `7 - k` of byte `j` (R7). -/
theorem flatMap_bitsOfByte_getElem? (p : List Byte) {j k : Nat} (hj : j < p.length) (hk : k < 8) :
    (p.flatMap bitsOfByte)[8 * j + k]? = some ((byteAt p j).getLsbD (7 - k)) := by
  induction p generalizing j with
  | nil => exact absurd hj (Nat.not_lt_zero j)
  | cons b p ih =>
    rw [List.flatMap_cons]
    cases j with
    | zero =>
      rw [List.getElem?_append_left (by rw [bitsOfByte_length]; omega)]
      interval_cases k <;> rfl
    | succ j =>
      rw [List.getElem?_append_right (by rw [bitsOfByte_length]; omega), bitsOfByte_length,
        show 8 * (j + 1) + k - 8 = 8 * j + k by omega, ih (Nat.lt_of_succ_lt_succ hj)]
      rfl

/-- Settles O46: the packed bits are the string and its padding, grouped by eight. -/
theorem packLaws : Obligations.PackLaws := by
  intro s
  have hpad := padCount_lt s.length
  refine ⟨Nat.le_of_lt_succ hpad, pack_length s, ?count, ?zero, fun j k hj hk => ?bit⟩
  case count =>
    have hbits := congrArg List.length (pack_bits s)
    rw [flatMap_bits_length, List.length_append, List.length_replicate] at hbits
    rw [pack_pad, hbits, Nat.add_sub_cancel]
  case zero =>
    rw [pack_pad, padCount]
    omega
  case bit =>
    have hbit := flatMap_bitsOfByte_getElem? (pack s).1 hj hk
    rw [pack_bits] at hbit
    rw [List.getD_eq_getElem?_getD]
    by_cases hin : 8 * j + k < s.length
    · rw [List.getElem?_append_left hin] at hbit
      rw [hbit, Option.getD_some]
    · rw [List.getElem?_append_right (by omega), List.getElem?_replicate] at hbit
      rw [List.getElem?_eq_none (by omega), Option.getD_none]
      split at hbit
      · exact (Option.some.inj hbit).symm
      · cases hbit

/-! ### Decoding (R75, C1) -/

/-- A code cut short decodes to no symbol: what it decoded to would decode from the whole code too, with
bits left over. -/
theorem decodeSymbol_take {t : Tree} {s : Byte} {c : Bits} (hc : (s, c) ∈ codeGen t) {n : Nat} (hn : n < c.length)
    (p : Byte × Bits) : decodeSymbol t (c.take n) ≠ .ok p := by
  obtain ⟨s', rest⟩ := p
  intro h
  obtain ⟨c', hc', htake⟩ := decodeSymbol_ok h
  have hsplit : c = c' ++ (rest ++ c.drop n) := by rw [← List.append_assoc, ← htake, List.take_append_drop]
  have hwhole := decodeSymbol_code t hc []
  rw [List.append_nil, hsplit, decodeSymbol_code t hc'] at hwhole
  have hnil : rest ++ c.drop n = [] := by
    injection hwhole with hpair
    exact (Prod.mk.inj hpair).2
  have hlen := congrArg List.length hnil
  rw [List.length_append, List.length_drop, List.length_nil] at hlen
  omega

/-- Encoded bits cut short decode to no input of that length. -/
theorem decodeBits_take {t : Tree} {d : List Byte} (hd : ∀ b ∈ d, (b, codeOf (codeGen t) b) ∈ codeGen t) {n : Nat}
    (hn : n < (encodeBits (codeGen t) d).length) (r : List Byte) :
    decodeBits t d.length ((encodeBits (codeGen t) d).take n) ≠ .ok r := by
  induction d generalizing n r with
  | nil => exact absurd hn (Nat.not_lt_zero n)
  | cons b d ih =>
    have hb := hd b (List.mem_cons_self ..)
    have henc : encodeBits (codeGen t) (b :: d) = codeOf (codeGen t) b ++ encodeBits (codeGen t) d := rfl
    rw [henc, List.length_append] at hn
    rw [henc, List.length_cons, decodeBits]
    by_cases hshort : n < (codeOf (codeGen t) b).length
    · rw [List.take_append_of_le_length hshort.le]
      cases hsym : decodeSymbol t ((codeOf (codeGen t) b).take n) with
      | ok p => exact absurd hsym (decodeSymbol_take hb hshort p)
      | error e => exact nofun
    · rw [List.take_append, List.take_of_length_le (by omega), decodeSymbol_code t hb]
      have hrest := ih (fun x hx => hd x (List.mem_cons_of_mem b hx))
        (n := n - (codeOf (codeGen t) b).length) (by omega)
      dsimp only
      split
      · exact nofun
      next d' hd' => exact absurd hd' (hrest d')

/-- Settles O48: the only error of decoding is MALFORMED_CONTAINER, and bits cut short do not decode. -/
theorem truncatedBitsAreMalformed : Obligations.TruncatedBitsAreMalformed := by
  intro es root d n h hd hn
  have hno := decodeBits_take (fun b hb => codeOf_mem_of_entries h (hd b hb)) hn
  cases hdec : decodeBits root d.length ((encodeBits (codeGen root) d).take n) with
  | ok r => exact absurd hdec (hno r)
  | error e => rw [decodeBits_error hdec]

/-- With one code for each symbol, the table gives that code. -/
theorem codeOf_eq_of_mem {c : CodeTable} (hnodup : (c.map Prod.fst).Nodup) {s : Byte} {p : Bits}
    (h : (s, p) ∈ c) : codeOf c s = p := by
  have hmem : (s, codeOf c s) ∈ c := codeOf_mem (List.mem_map_of_mem h)
  have heq := List.inj_on_of_nodup_map hnodup hmem h rfl
  exact (Prod.mk.inj heq).2

/-- What decodes is symbols of the tree, and their codes are what was read. -/
theorem decodeBits_ok {t : Tree} (hnodup : t.syms.Nodup) {n : Nat} {u : Bits} {d : List Byte}
    (h : decodeBits t n u = .ok d) : (∀ b ∈ d, b ∈ t.syms) ∧ encodeBits (codeGen t) d <+: u := by
  induction n generalizing u d with
  | zero =>
    cases h
    exact ⟨nofun, List.nil_prefix⟩
  | succ n ih =>
    rw [decodeBits] at h
    split at h
    · cases h
    next s rest hsym =>
      split at h
      · cases h
      next d' hd' =>
        cases h
        obtain ⟨hsyms, hprefix⟩ := ih hd'
        obtain ⟨c, hc, rfl⟩ := decodeSymbol_ok hsym
        have hs : s ∈ t.syms := codeGen_syms t ▸ List.mem_map_of_mem hc
        have hcode : codeOf (codeGen t) s = c := codeOf_eq_of_mem (by rwa [codeGen_syms]) hc
        refine ⟨fun b hb => ?_, ?_⟩
        · rcases List.mem_cons.1 hb with rfl | hb
          · exact hs
          · exact hsyms b hb
        · rw [encodeBits, List.flatMap_cons, hcode]
          exact (List.prefix_append_right_inj c).2 hprefix

/-- Settles O53: decoding reads one code per symbol, and under distinct symbols the code read is the table's. -/
theorem leftoverBitsAreIgnored : Obligations.LeftoverBitsAreIgnored := by
  intro es root h
  have hperm := treeBuild_syms h
  refine ⟨fun d extra hd => decodeBits_encodeBits root d (fun b hb => hperm.symm.subset (hd b hb)) extra,
    fun hnodup n u d hdec => ?_⟩
  obtain ⟨hsyms, hprefix⟩ := decodeBits_ok (hperm.nodup_iff.2 hnodup) hdec
  exact ⟨decodeBits_length hdec, fun b hb => hperm.subset (hsyms b hb), hprefix⟩

end Sys2Proof.Machine
end
